-- ==== Sys2Proof/Word.lean ====
section
/-! DEFINITION. The Word, and the two sets of names an instruction word is made of: addressing modes and opcodes.

A Word (rule R9) is a memory word, a pc value or an I/O value. The spec computes on mathematical integers and never on
bits (rules R13, R14), so a Word is an `Int` here, written so everywhere; that it lies in the range of the machine's
width is the explicit check `Machine.inWord`, and the invariant of Safety.lean says that every register, every memory
word and every channel value does. Log entry 1. -/

namespace Sys2Proof

/-- The two addressing modes (rules R3, R73): digit 0 is positional, digit 1 is immediate. -/
inductive Mode where
  | positional
  | immediate
deriving DecidableEq, Repr

/-- The nine opcodes by name (rule R78). A trace record names one (rule R148). -/
inductive Opcode where
  | add
  | mul
  | read
  | write
  | jnz
  | jz
  | lt
  | cmp
  | halt
deriving DecidableEq, Repr

end Sys2Proof
end

