-- ==== Sys2Proof/Syntax.lean ====
section
/-! DEFINITION. The instructions: one constructor per row of spec/opcode_table.json. -/

namespace Sys2Proof

/-- An instruction as the decoder delivers it (rule R81): the opcode is the constructor, and its arguments are the
mode vector, one mode per parameter slot in slot order (rules R75, R103). The parameter Words stay in memory, where
the resolver reads them (rule R105); they are no part of the decoded word (rule R33). -/
inductive Instr where
  /-- ADD, opcode 1, format F3. -/
  | add (a b dest : Mode)
  /-- MUL, opcode 2, format F3. -/
  | mul (a b dest : Mode)
  /-- READ, opcode 3, format F1W. -/
  | read (dest : Mode)
  /-- WRITE, opcode 4, format F1R. -/
  | write (a : Mode)
  /-- JNZ, opcode 5, format F2. -/
  | jnz (a target : Mode)
  /-- JZ, opcode 6, format F2. -/
  | jz (a target : Mode)
  /-- LT, opcode 7, format F3. -/
  | lt (a b dest : Mode)
  /-- CMP, opcode 8, format F3. -/
  | cmp (a b dest : Mode)
  /-- HALT, opcode 99, format F0. -/
  | halt
deriving DecidableEq, Repr

end Sys2Proof
end

