-- ==== Sys2Proof/WellFormed.lean ====
section
/-! DEFINITION. Which mode vectors a decoder can deliver. -/

namespace Sys2Proof

/-- A write-target slot is always positional (rule R74: "Write-target parameters are always positional (never
immediate) in this instruction set"), so the decoder of rule R81 delivers no other mode for it. -/
def wellFormed : Instr → Bool
  | .add _ _ dest => decide (dest = .positional)
  | .mul _ _ dest => decide (dest = .positional)
  | .read dest => decide (dest = .positional)
  | .write _ => true
  | .jnz _ _ => true
  | .jz _ _ => true
  | .lt _ _ dest => decide (dest = .positional)
  | .cmp _ _ dest => decide (dest = .positional)
  | .halt => true

end Sys2Proof
end

