-- ==== Sys2Proof/Decode.lean ====
section
/-! DEFINITION. The decimal instruction encoding (30_encoding.md): the decoder, total on every Word, and the encoder
of canonical words. -/

namespace Sys2Proof

/-- Whether a parameter slot gives an operand or names the index written (rule R104). -/
inductive SlotKind where
  | read
  | write
deriving DecidableEq, Repr

/-- The three answers of the decoder (rule R81). The two rejections name their reason (rules R72, R73, R79). -/
inductive DecodeResult where
  | ok (i : Instr)
  | unknownOpcode
  | badMode
deriving DecidableEq, Repr

/-- The opcode numbers (rule R78). -/
def opcodeNumber : Opcode → Int
  | .add => 1
  | .mul => 2
  | .read => 3
  | .write => 4
  | .jnz => 5
  | .jz => 6
  | .lt => 7
  | .cmp => 8
  | .halt => 99

/-- The opcode a number selects; every number outside rule R78's map selects none (rule R79). -/
def opcodeOfNumber (c : Int) : Option Opcode :=
  if c = 1 then some .add
  else if c = 2 then some .mul
  else if c = 3 then some .read
  else if c = 4 then some .write
  else if c = 5 then some .jnz
  else if c = 6 then some .jz
  else if c = 7 then some .lt
  else if c = 8 then some .cmp
  else if c = 99 then some .halt
  else none

/-- The number of parameter slots of an opcode (rule R75). -/
def nparams : Opcode → Nat
  | .halt => 0
  | .read | .write => 1
  | .jnz | .jz => 2
  | .add | .mul | .lt | .cmp => 3

/-- The length of an instruction in Words depends on its opcode only (rules R70, R76). -/
def instrLength (op : Opcode) : Nat := nparams op + 1

/-- The kind of slot `k`, counted from 1 (rule R104): slot 3 of ADD, MUL, LT and CMP and slot 1 of READ are
write targets, every other used slot is read. -/
def slotKind : Opcode → Nat → SlotKind
  | .add, 3 | .mul, 3 | .lt, 3 | .cmp, 3 => .write
  | .read, 1 => .write
  | _, _ => .read

/-- Decimal digit `k` of a non-negative Word, digit 0 the least significant (rule R14). -/
def digit (k : Nat) (w : Int) : Int := w / 10 ^ k % 10

/-- The mode of slot `k` of a word whose opcode is `op` (rule R71: decimal digit `k + 1`), and none for a digit of
2 to 9 (rule R73). A write-target slot is positional for either legal digit (rule R74). -/
def slotMode (op : Opcode) (w : Int) (k : Nat) : Option Mode :=
  if digit (k + 1) w = 0 then some .positional
  else if digit (k + 1) w = 1 then
    match slotKind op k with
    | .read => some .immediate
    | .write => some .positional
  else none

/-- The instruction of an opcode whose slots have the modes that the word's digits give; none where a used slot has
a digit of 2 to 9. Digits above the last slot are not looked at (rule R71). -/
def instrOf (op : Opcode) (w : Int) : Option Instr :=
  match op with
  | .add => do return .add (← slotMode op w 1) (← slotMode op w 2) (← slotMode op w 3)
  | .mul => do return .mul (← slotMode op w 1) (← slotMode op w 2) (← slotMode op w 3)
  | .read => do return .read (← slotMode op w 1)
  | .write => do return .write (← slotMode op w 1)
  | .jnz => do return .jnz (← slotMode op w 1) (← slotMode op w 2)
  | .jz => do return .jz (← slotMode op w 1) (← slotMode op w 2)
  | .lt => do return .lt (← slotMode op w 1) (← slotMode op w 2) (← slotMode op w 3)
  | .cmp => do return .cmp (← slotMode op w 1) (← slotMode op w 2) (← slotMode op w 3)
  | .halt => some .halt

/-- The normative decoder, total on every Word (rule R81): a negative word and an opcode outside the map are unknown
(rules R72, R79), a bad digit in a used slot is a bad mode (rule R73). -/
def decode (w : Int) : DecodeResult :=
  if w < 0 then .unknownOpcode
  else
    match opcodeOfNumber (w % 100) with
    | none => .unknownOpcode
    | some op =>
      match instrOf op w with
      | none => .badMode
      | some i => .ok i

/-- The opcode of an instruction. -/
def opcodeOf : Instr → Opcode
  | .add _ _ _ => .add
  | .mul _ _ _ => .mul
  | .read _ => .read
  | .write _ => .write
  | .jnz _ _ => .jnz
  | .jz _ _ => .jz
  | .lt _ _ _ => .lt
  | .cmp _ _ _ => .cmp
  | .halt => .halt

/-- The mode vector of an instruction, in slot order (rule R103). -/
def modesOf : Instr → List Mode
  | .add a b dest => [a, b, dest]
  | .mul a b dest => [a, b, dest]
  | .read dest => [dest]
  | .write a => [a]
  | .jnz a target => [a, target]
  | .jz a target => [a, target]
  | .lt a b dest => [a, b, dest]
  | .cmp a b dest => [a, b, dest]
  | .halt => []

/-- The digit of a mode (rule R73). -/
def modeDigit : Mode → Int
  | .positional => 0
  | .immediate => 1

/-- The canonical word of an instruction (rule R80): `opcode + 100*m1 + 1000*m2 + 10000*m3`, where the mode digit of
a write-target slot is 0. -/
def encode : Instr → Int
  | .add a b _ => 1 + 100 * modeDigit a + 1000 * modeDigit b
  | .mul a b _ => 2 + 100 * modeDigit a + 1000 * modeDigit b
  | .read _ => 3
  | .write a => 4 + 100 * modeDigit a
  | .jnz a target => 5 + 100 * modeDigit a + 1000 * modeDigit target
  | .jz a target => 6 + 100 * modeDigit a + 1000 * modeDigit target
  | .lt a b _ => 7 + 100 * modeDigit a + 1000 * modeDigit b
  | .cmp a b _ => 8 + 100 * modeDigit a + 1000 * modeDigit b
  | .halt => 99

/-- The words of an instruction in memory: its word and its parameter Words, in slot order (rule R70). -/
def encodeWords (i : Instr) (params : List Int) : List Int := encode i :: params

/-- The bits a table word gives to one Word: 64, the spec's default width (rule R9). A 64-bit pattern is a Word at
every width the spec allows. Log entry 11. -/
def tableWordBits : Nat := 64

/-- Word `k` of a table word of `nbits` bits: bits `64*k` to `64*k + 63`, read as a two's-complement integer
(rule R9). Bits above `nbits` are 0. -/
def tableWord (nbits w k : Nat) : Int :=
  let u := w % 2 ^ nbits / 2 ^ (tableWordBits * k) % 2 ^ tableWordBits
  if u < 2 ^ (tableWordBits - 1) then (u : Int) else (u : Int) - (2 ^ tableWordBits : Nat)

/-- The longest instruction has this many Words (rule R75, format F3). -/
def longestInstr : Nat := 4

/-- The Words of a table word, up to the longest instruction: the instruction word first, as memory holds them. -/
def tableWords (nbits w : Nat) : List Int := (List.range longestInstr).map (tableWord nbits w)

/-- The instruction the decoder reads from a table word: its first Word decoded; none where the decoder refuses. -/
def decodeTableWord (nbits w : Nat) : Option Instr :=
  match decode (tableWord nbits w 0) with
  | .ok i => some i
  | .unknownOpcode => none
  | .badMode => none

end Sys2Proof
end

