-- ==== Sys2Proof/Config.lean ====
section
/-! DEFINITION. What an implementation fixes: the three parameters of 00_scope.md rules R9 to R11.

The spec has no free value: every case it leaves undefined is a fault, a refusal or a parameter (93_implementation_defined.md).
State carries a `Config`, so a statement over all states is a statement over all parameters (log entry 2). -/

namespace Sys2Proof

/-- WORD_WIDTH (rule R9): `bits extra` is W = 64 + extra, so W >= 64 always holds; `unbounded` is W = UNBOUNDED,
the mathematical integers. -/
inductive WordWidth where
  | bits (extra : Nat)
  | unbounded
deriving DecidableEq, Repr

/-- The parameters of one machine. -/
structure Config where
  /-- WORD_WIDTH (rule R9). -/
  width : WordWidth
  /-- MEM_CAPACITY (rule R10). -/
  memCapacity : Nat
  /-- TRACE_ENABLED (rule R11). -/
  traceEnabled : Bool
deriving DecidableEq, Repr

/-- The parameters of the machine `State.reset` describes. W = 64 is the spec's default (rule R9).
DESIGN CHOICE: the capacity is the largest that rule R10 allows at that width, and the trace is on
(log entries 3 and 4). Unsafe for a statement that rests on either value; every statement is over all parameters. -/
def defaultConfig : Config :=
  { width := .bits 0, memCapacity := 2 ^ 63 - 5, traceEnabled := true }

end Sys2Proof
end

