-- ==== Sys2Proof/Machine/State.lean ====
section
/-! DEFINITION. The state of the machine as plain data, the reasons a step can stop, and the state right after reset
(10_state.md, 70_reset_and_hazards.md rule R230). -/

namespace Sys2Proof.Machine

/-- The memory `M` (rule R23) as (index, Word) pairs in one canonical form: indices strictly rising, and no entry
equal to what an unlisted index reads as (`Memory.unlisted`). The unit is one Word (rule R54): there is no byte view.
Log entry 5. -/
abbrev Memory := List (Nat × Int)

/-- run_state (rule R27). -/
inductive RunState where
  /-- Loaded or loading, not yet started: no step is taken. -/
  | idle
  /-- The executor takes steps. -/
  | running
  /-- The executor has stopped, by HALT or by a fault. -/
  | halted
deriving DecidableEq, Repr

/-- The four kinds of access an AddressingFault records (rule R200). -/
inductive AccessKind where
  /-- The instruction word at pc. -/
  | fetch
  /-- A parameter word at pc + k. -/
  | param
  /-- A positional read operand. -/
  | operandRead
  /-- A write target. -/
  | write
deriving DecidableEq, Repr

/-- The faults the core raises and captures (60_exceptions.md, part 1), with what each records. They are no stop of
the model: taking one is a next state (`takeFault`, rule R207). -/
inductive CoreFault where
  /-- AddressingFault (rule R200) of an access kind at an index. -/
  | addressing (kind : AccessKind) (index : Int)
  /-- DecodeFault, UNKNOWN_OPCODE (rule R201 case a), of an instruction word. -/
  | unknownOpcode (w : Int)
  /-- DecodeFault, BAD_MODE (rule R201 case b), of an instruction word. -/
  | badMode (w : Int)
  /-- InputExhausted (rule R202). -/
  | inputExhausted
  /-- ArithmeticOverflow (rule R204). -/
  | arithmeticOverflow
deriving DecidableEq, Repr

/-- One trace record `(pc, op, p[1..n], v[1..n])` (rule R148). -/
structure TraceRecord where
  /-- The step's own pc, before the update. -/
  pc : Int
  /-- The opcode. -/
  op : Opcode
  /-- The raw parameter Words. -/
  params : List Int
  /-- The resolved value of each read slot, and the target index for the write slot. -/
  values : List Int
deriving DecidableEq, Repr

/-- Everything the spec gives the machine: the architectural state of 10_state.md (rules R23 to R31), the channels of
rules R46 and R47, and the parameters of rules R9 to R11. `input_wait` has no storage of its own (rule R34) and is
the function `inputWait`. -/
structure State where
  /-- WORD_WIDTH, MEM_CAPACITY and TRACE_ENABLED: fixed for a machine, written by no step and no event (log entry 2). -/
  cfg : Config
  /-- `M` (rule R23). -/
  mem : Memory
  /-- `mem_len` (rule R24). -/
  memLen : Nat
  /-- `pc` (rule R25). -/
  pc : Int
  /-- `run_state` (rule R27). -/
  runState : RunState
  /-- `fault_cause` (rule R28), 3 bits. -/
  faultCause : BitVec 3
  /-- `fault_pc` (rule R29). -/
  faultPc : Int
  /-- `fault_value` (rule R30). -/
  faultValue : Int
  /-- `fault_detail` (rule R31), 3 bits. -/
  faultDetail : BitVec 3
  /-- `in_queue` (rule R46): supplied and not yet taken, oldest first. -/
  inQueue : List Int
  /-- `in_closed` (rule R46). -/
  inClosed : Bool
  /-- `out_seq` (rule R47), oldest first. -/
  outSeq : List Int
  /-- `trace_seq` (rules R47, R148), oldest first. -/
  traceSeq : List TraceRecord
deriving DecidableEq, Repr

/-- Why a step can stop the MODEL: only because the core has no step there (rule R100: "In IDLE and HALTED it has no
step"). The spec's own faults are next states, not these. Safe: the model stops where the hardware does nothing
(log entry 7). -/
inductive Fault where
  /-- `step` raises it in IDLE: the host has not started the machine. Safe. -/
  | noStepIdle
  /-- `step` raises it in HALTED: the run has ended, by HALT or by a fault (rules R181, R183). Safe. -/
  | noStepHalted
deriving DecidableEq, Repr

/-- Why the model has no meaning for an instruction. No arm of `exec` and no meaning answers with it. -/
inductive Refusal where
  /-- Raised by an arm of `exec` that has no meaning yet, with the row's mnemonic; there is none. Safe. -/
  | notModelled (mnemonic : String)
deriving DecidableEq, Repr

/-- The state right after reset of a machine with parameters `cfg` (rule R230), its channels new: reset leaves those to
the environment (rules R46, R230). DESIGN CHOICE: a new input channel is empty and open, the output and the trace are
empty, and memory, which the spec leaves unspecified and unobservable while `mem_len` is 0, lists nothing
(log entries 5 and 8). -/
def State.resetWith (cfg : Config) : State :=
  { cfg := cfg
    mem := []
    memLen := 0
    pc := 0
    runState := .idle
    faultCause := 0
    faultPc := 0
    faultValue := 0
    faultDetail := 0
    inQueue := []
    inClosed := false
    outSeq := []
    traceSeq := [] }

/-- The machine right after reset, with the default parameters. -/
def State.reset : State := State.resetWith defaultConfig

end Sys2Proof.Machine
end

