-- ==== Sys2Proof/Machine/Ops.lean ====
section
/-! DEFINITION. The named operations over memory, registers and channels: bounds-checked access (20_memory.md), taking
a fault (60_exceptions.md rule R207), the pc sequencer and retirement (40_step_pipeline.md rules R108 to R110). -/

namespace Sys2Proof.Machine

/-! Words -/

/-- `in_word(v)` (rule R13): `-2^(W-1) <= v <= 2^(W-1) - 1` with W = 64 + extra, always true when W = UNBOUNDED. -/
def inWord (c : Config) (v : Int) : Bool :=
  match c.width with
  | .bits extra => decide (-((2 ^ (63 + extra) : Nat) : Int) ≤ v ∧ v < ((2 ^ (63 + extra) : Nat) : Int))
  | .unbounded => true

/-- The bound on MEM_CAPACITY of rule R10: `MEM_CAPACITY + 4 <= 2^(W-1) - 1`, no bound when W = UNBOUNDED. -/
def configOk (c : Config) : Bool := inWord c ((c.memCapacity : Int) + 4)

/-! Memory -/

/-- What an index that is not listed reads as. A valid index is unlisted only when its Word is 0: `load` writes every
index below `mem_len`, and no other index is ever read (rules R41, R51). Log entry 5. -/
def Memory.unlisted : Int := 0

/-- The Word at an index. -/
def Memory.read : Memory → Nat → Int
  | [], _ => Memory.unlisted
  | (b, v) :: rest, a => if a = b then v else Memory.read rest a

/-- One entry put in front, unless it is what an unlisted index reads as. -/
def Memory.entry (a : Nat) (v : Int) (rest : Memory) : Memory :=
  if v = Memory.unlisted then rest else (a, v) :: rest

/-- The memory with the Word at one index replaced, in canonical form. -/
def Memory.write : Memory → Nat → Int → Memory
  | [], a, v => Memory.entry a v []
  | (b, u) :: rest, a, v =>
    if a < b then Memory.entry a v ((b, u) :: rest)
    else if a = b then Memory.entry a v rest
    else (b, u) :: Memory.write rest a v

/-- The memory that holds a sequence from index `i` on. -/
def Memory.ofListFrom : Nat → List Int → Memory
  | _, [] => []
  | i, v :: vs => Memory.entry i v (Memory.ofListFrom (i + 1) vs)

/-- Every listed index lies at or above `lo`, rises strictly, and no entry is what an unlisted index reads as. -/
def Memory.wfFrom : Nat → Memory → Bool
  | _, [] => true
  | lo, (a, v) :: rest => decide (lo ≤ a) && decide (v ≠ Memory.unlisted) && Memory.wfFrom (a + 1) rest

/-- The canonical form of a memory. -/
def Memory.wf (m : Memory) : Bool := Memory.wfFrom 0 m

/-- An index is valid (rule R51): `0 <= a < mem_len`. A negative Word is out of range. -/
def inRange (s : State) (a : Int) : Bool := decide (0 ≤ a ∧ a < s.memLen)

/-- `M[a]` for a valid index `a`. -/
def wordAt (s : State) (a : Int) : Int := s.mem.read a.toNat

/-- `MemRead(a, 1)` (rule R15): the Word at `a`, or AddressingFault(a) of the access kind outside `[0, mem_len)`. -/
def memRead (s : State) (kind : AccessKind) (a : Int) : Except CoreFault Int :=
  if inRange s a then .ok (wordAt s a) else .error (.addressing kind a)

/-- `MemWrite(a, 1, v)` (rule R15) at an index already checked (rule R109: "This cannot fault"). -/
def memWrite (a v : Int) (s : State) : State := { s with mem := s.mem.write a.toNat v }

/-! Taking a fault -/

/-- `fault_cause` of a fault (rule R28). -/
def causeCode : CoreFault → BitVec 3
  | .addressing _ _ => 1
  | .unknownOpcode _ => 2
  | .badMode _ => 2
  | .inputExhausted => 3
  | .arithmeticOverflow => 4

/-- `fault_value` of a fault (rule R30). -/
def faultWord : CoreFault → Int
  | .addressing _ index => index
  | .unknownOpcode w => w
  | .badMode w => w
  | .inputExhausted => 0
  | .arithmeticOverflow => 0

/-- `fault_detail` of a fault (rule R31). -/
def detailCode : CoreFault → BitVec 3
  | .addressing .fetch _ => 1
  | .addressing .param _ => 2
  | .addressing .operandRead _ => 3
  | .addressing .write _ => 4
  | .unknownOpcode _ => 1
  | .badMode _ => 2
  | .inputExhausted => 0
  | .arithmeticOverflow => 0

/-- Fault capture, the only trap entry (rule R207). Nothing but the fault registers and run_state changes; there is no
handler and no return (rules R208, R209): only the host's reset leaves HALTED (rule R182, `hostReset`). -/
def takeFault (f : CoreFault) (s : State) : State :=
  { s with
    faultCause := causeCode f
    faultPc := s.pc
    faultValue := faultWord f
    faultDetail := detailCode f
    runState := .halted }

/-! Channels -/

/-- `emit_out(v)` (rule R47): append a value to the output; the sink accepts at once. -/
def emitOut (v : Int) (s : State) : State := { s with outSeq := s.outSeq ++ [v] }

/-- The removal half of `take_in()` (rule R141): drop the head of the input queue. -/
def dropInput (s : State) : State := { s with inQueue := s.inQueue.tail }

/-- `emit_trace(r)` (rules R47, R148): append a record when TRACE_ENABLED. -/
def emitTrace (r : TraceRecord) (s : State) : State :=
  { s with traceSeq := if s.cfg.traceEnabled then s.traceSeq ++ [r] else s.traceSeq }

/-! The pc sequencer and retirement -/

/-- `next_pc` (rule R108). `taken` is the resolved target of a jump that is taken, and none otherwise: every other
instruction but HALT advances by its length, and HALT leaves pc unchanged. -/
def nextPc (op : Opcode) (pc : Int) (taken : Option Int) : Int :=
  match op, taken with
  | .halt, _ => pc
  | _, some target => target
  | _, none => pc + instrLength op

/-- One resolved slot (rule R105): its parameter Word, and the operand's value or, for a write slot, the target. -/
structure Slot where
  param : Int
  value : Int
deriving DecidableEq, Repr

/-- What an opcode rule asks for at retirement (rule R107): at most one memory write, at most one output value, whether
READ consumed the head of the input, and the target of a taken jump; with the slots the trace records. -/
structure Effect where
  op : Opcode
  slots : List Slot
  write : Option (Int × Int) := none
  out : Option Int := none
  consume : Bool := false
  taken : Option Int := none
deriving DecidableEq, Repr

/-- How a step that has decoded an instruction ends (rule R100): it retires, holds, or raises a fault. -/
inductive Verdict where
  | retire (e : Effect)
  | hold
  | raise (f : CoreFault)
deriving DecidableEq, Repr

/-- The trace record of a retiring step at `pc` (rule R148). -/
def recordOf (pc : Int) (e : Effect) : TraceRecord :=
  { pc := pc, op := e.op, params := e.slots.map Slot.param, values := e.slots.map Slot.value }

/-- The pending write of an effect, done (rule R109 point 1). -/
def commitWrite (w : Option (Int × Int)) (s : State) : State :=
  match w with
  | some (t, v) => memWrite t v s
  | none => s

/-- The pending output of an effect, emitted (rule R109 point 2). -/
def commitOut (o : Option Int) (s : State) : State :=
  match o with
  | some v => emitOut v s
  | none => s

/-- The consumed input of an effect, removed (rule R109 point 3). -/
def commitInput (consume : Bool) (s : State) : State := if consume then dropInput s else s

/-- run_state after retirement: HALT halts the machine (rule R109 point 6), nothing else does (rule R164). -/
def runStateAfter (op : Opcode) (r : RunState) : RunState :=
  match op with
  | .halt => .halted
  | .add | .mul | .read | .write | .jnz | .jz | .lt | .cmp => r

/-- Retirement (rule R109): all the effects of a step at once. -/
def retire (e : Effect) (s : State) : State :=
  let done := commitInput e.consume (commitOut e.out (commitWrite e.write s))
  let moved := { done with pc := nextPc e.op s.pc e.taken }
  let traced := emitTrace (recordOf s.pc e) moved
  { traced with runState := runStateAfter e.op s.runState }

/-- The end of a step (rules R109, R110, R142): retire, or change nothing, or take the fault. Each is a next state. -/
def commit (v : Verdict) (s : State) : Host.Outcome State Fault Refusal :=
  match v with
  | .retire e => .next (retire e s)
  | .hold => .next s
  | .raise f => .next (takeFault f s)

end Sys2Proof.Machine
end

