-- ==== Sys2Proof/Machine/Flags.lean ====
section
/-! DEFINITION. The core has no flags and no condition codes (10_state.md rule R21). The conditions its instructions
compute are here: the range check of ADD and MUL, the results of LT and CMP, and the tests of JNZ and JZ. -/

namespace Sys2Proof.Machine

/-- An exact result narrowed to a Word, or ArithmeticOverflow (rule R133): there is no wrap. -/
def checked (c : Config) (v : Int) : Except CoreFault Int :=
  if inWord c v then .ok v else .error .arithmeticOverflow

/-- The Word a comparison writes: 1 or 0 (rules R21, R172). -/
def truthWord (b : Bool) : Int := if b then 1 else 0

/-- The result of LT: signed less-than (rule R170). -/
def lessWord (x y : Int) : Int := truthWord (decide (x < y))

/-- The result of CMP: equality of whole Words (rule R171). -/
def equalWord (x y : Int) : Int := truthWord (decide (x = y))

/-- JNZ takes its jump (rule R160). -/
def nonZero (x : Int) : Bool := decide (x ≠ 0)

/-- JZ takes its jump (rule R161). -/
def isZero (x : Int) : Bool := decide (x = 0)

end Sys2Proof.Machine
end

