-- ==== Sys2Proof/Machine/Operands.lean ====
section
/-! DEFINITION. Operand resolution (40_step_pipeline.md rules R104 to R106): one resolver per slot kind, and one per
format of rule R75. Every slot of a format is resolved, in increasing order, before the operation executes. -/

namespace Sys2Proof.Machine

/-- The parameter Word of slot `k`, `M[pc + k]`, bounds-checked (rules R51, R105). -/
def readParam (s : State) (k : Nat) : Except CoreFault Int := memRead s .param (s.pc + k)

/-- A read slot in its mode (rule R105): immediate gives the parameter itself, positional dereferences it once. -/
def resolveRead (s : State) (k : Nat) (m : Mode) : Except CoreFault Slot :=
  match readParam s k with
  | .error f => .error f
  | .ok p =>
    match m with
    | .immediate => .ok ⟨p, p⟩
    | .positional =>
      match memRead s .operandRead p with
      | .error f => .error f
      | .ok v => .ok ⟨p, v⟩

/-- A write slot: always positional, its parameter is the index written, checked before the operation executes
(rules R74, R105). -/
def resolveWrite (s : State) (k : Nat) : Except CoreFault Slot :=
  match readParam s k with
  | .error f => .error f
  | .ok p => if inRange s p then .ok ⟨p, p⟩ else .error (.addressing .write p)

/-- Format F1R: one read slot. -/
def withF1R (s : State) (a : Mode) (k : Slot → Verdict) : Verdict :=
  match resolveRead s 1 a with
  | .error f => .raise f
  | .ok x => k x

/-- Format F1W: one write slot. -/
def withF1W (s : State) (k : Slot → Verdict) : Verdict :=
  match resolveWrite s 1 with
  | .error f => .raise f
  | .ok t => k t

/-- Format F2: two read slots. -/
def withF2 (s : State) (a b : Mode) (k : Slot → Slot → Verdict) : Verdict :=
  match resolveRead s 1 a with
  | .error f => .raise f
  | .ok x =>
    match resolveRead s 2 b with
    | .error f => .raise f
    | .ok y => k x y

/-- Format F3: two read slots and a write slot. -/
def withF3 (s : State) (a b : Mode) (k : Slot → Slot → Slot → Verdict) : Verdict :=
  withF2 s a b fun x y =>
    match resolveWrite s 3 with
    | .error f => .raise f
    | .ok t => k x y t

/-- An instruction of format F3 whose result may be a fault: it writes the result to its target (rules R107, R109). -/
def execF3 (op : Opcode) (a b : Mode) (result : Int → Int → Except CoreFault Int) (s : State) :
    Host.Outcome State Fault Refusal :=
  commit (withF3 s a b fun x y t =>
    match result x.value y.value with
    | .error f => .raise f
    | .ok v => .retire { op := op, slots := [x, y, t], write := some (t.value, v) }) s

/-- A jump (format F2): its target is the resolved value of slot 2, in either mode, and is not checked against memory
(rules R162, R165). -/
def execF2 (op : Opcode) (a target : Mode) (takes : Int → Bool) (s : State) :
    Host.Outcome State Fault Refusal :=
  commit (withF2 s a target fun x y =>
    .retire { op := op, slots := [x, y], taken := if takes x.value then some y.value else none }) s

end Sys2Proof.Machine
end

