-- ==== Sys2Proof/Machine/Arithmetic.lean ====
section
/-! DEFINITION. ADD and MUL (41_arithmetic.md): exact on integers, a result that is no Word faults. -/

namespace Sys2Proof.Machine

/-- ADD (rule R130): `memory[dest] = a + b`, pc + 4. -/
def execAdd (a b : Mode) (s : State) : Host.Outcome State Fault Refusal :=
  execF3 .add a b (fun x y => checked s.cfg (x + y)) s

/-- MUL (rule R131): `memory[dest] = a * b`, pc + 4. -/
def execMul (a b : Mode) (s : State) : Host.Outcome State Fault Refusal :=
  execF3 .mul a b (fun x y => checked s.cfg (x * y)) s

end Sys2Proof.Machine
end

