-- ==== Sys2Proof/Machine/Compare.lean ====
section
/-! DEFINITION. LT and CMP (44_compare.md): the result, 1 or 0, is a memory word. -/

namespace Sys2Proof.Machine

/-- LT (rule R170): `memory[dest] = (a < b) ? 1 : 0`, signed, pc + 4. -/
def execLt (a b : Mode) (s : State) : Host.Outcome State Fault Refusal :=
  execF3 .lt a b (fun x y => .ok (lessWord x y)) s

/-- CMP (rule R171): `memory[dest] = (a == b) ? 1 : 0`, pc + 4. -/
def execCmp (a b : Mode) (s : State) : Host.Outcome State Fault Refusal :=
  execF3 .cmp a b (fun x y => .ok (equalWord x y)) s

end Sys2Proof.Machine
end

