-- ==== Sys2Proof/Machine/Control.lean ====
section
/-! DEFINITION. JNZ and JZ (43_control.md) and HALT (45_halt.md). -/

namespace Sys2Proof.Machine

/-- JNZ (rule R160): if `a` is not 0, pc' = target, else pc + 3. -/
def execJnz (a target : Mode) (s : State) : Host.Outcome State Fault Refusal :=
  execF2 .jnz a target nonZero s

/-- JZ (rule R161): if `a` is 0, pc' = target, else pc + 3. -/
def execJz (a target : Mode) (s : State) : Host.Outcome State Fault Refusal :=
  execF2 .jz a target isZero s

/-- HALT (rule R180): it retires, pc is unchanged and run_state becomes HALTED. -/
def execHalt (s : State) : Host.Outcome State Fault Refusal :=
  commit (.retire { op := .halt, slots := [] }) s

end Sys2Proof.Machine
end

