-- ==== Sys2Proof/Machine/InputOutput.lean ====
section
/-! DEFINITION. READ and WRITE (42_io.md). -/

namespace Sys2Proof.Machine

/-- READ (rules R140 to R146): its target is resolved first; then it takes the head of the input, or holds while the
queue is empty and open, or raises InputExhausted when it is empty and closed. pc + 2. -/
def execRead (s : State) : Host.Outcome State Fault Refusal :=
  commit (withF1W s fun t =>
    match s.inQueue with
    | x :: _ => .retire { op := .read, slots := [t], write := some (t.value, x), consume := true }
    | [] => if s.inClosed then .raise .inputExhausted else .hold) s

/-- WRITE (rule R144): emit `a` to output, pc + 2. It never waits (rule R47). -/
def execWrite (a : Mode) (s : State) : Host.Outcome State Fault Refusal :=
  commit (withF1R s a fun x =>
    .retire { op := .write, slots := [x], out := some x.value }) s

end Sys2Proof.Machine
end

