-- ==== Sys2Proof/Machine/Dispatch.lean ====
section
/-! DEFINITION. One arm per instruction (rule R107). A write slot's mode does not change how it resolves (rule R74), so
no meaning takes it. -/

namespace Sys2Proof.Machine

def exec (i : Instr) (s : State) : Host.Outcome State Fault Refusal :=
  match i with
  | .add a b _ => Sys2Proof.Machine.execAdd a b s
  | .mul a b _ => Sys2Proof.Machine.execMul a b s
  | .read _ => Sys2Proof.Machine.execRead s
  | .write a => Sys2Proof.Machine.execWrite a s
  | .jnz a target => Sys2Proof.Machine.execJnz a target s
  | .jz a target => Sys2Proof.Machine.execJz a target s
  | .lt a b _ => Sys2Proof.Machine.execLt a b s
  | .cmp a b _ => Sys2Proof.Machine.execCmp a b s
  | .halt => Sys2Proof.Machine.execHalt s

end Sys2Proof.Machine
end

