-- ==== Sys2Proof/Machine/Fetch.lean ====
section
/-! DEFINITION. Fetch and decode (40_step_pipeline.md rules R101, R102), and placing an instruction where the next step
fetches it. -/

namespace Sys2Proof.Machine

/-- The instruction at pc, or the fault of its fetch or its decoding (rules R101, R102). The fetch is the first access
of a step, and decoding comes before any parameter read. -/
def fetchDecode (s : State) : Except CoreFault Instr :=
  match memRead s .fetch s.pc with
  | .error f => .error f
  | .ok w =>
    match decode w with
    | .unknownOpcode => .error (.unknownOpcode w)
    | .badMode => .error (.badMode w)
    | .ok i => .ok i

/-- The memory with a sequence written from an index on. -/
def Memory.writeFrom (m : Memory) (i : Nat) : List Int → Memory
  | [] => m
  | v :: vs => Memory.writeFrom (m.write i v) (i + 1) vs

/-- The state with Words placed where the next step fetches, and the machine RUNNING: what the host's load and start
would do for an image that holds them at pc (rules R41, R44). A pc below 0 names no index and becomes 0.
Log entry 10. -/
def placeWords (vs : List Int) (s : State) : State :=
  let at0 := s.pc.toNat
  { s with
    pc := at0
    mem := Memory.writeFrom s.mem at0 vs
    memLen := max s.memLen (at0 + vs.length)
    runState := .running }

end Sys2Proof.Machine
end

