-- ==== Sys2Proof/Machine/Step.lean ====
section
/-! DEFINITION. One step of the core (40_step_pipeline.md rule R111). -/

namespace Sys2Proof.Machine

/-- The core takes a step only when RUNNING (rule R100): it fetches and decodes, then executes the instruction, or takes
the fault of the fetch or of the decoding. In IDLE and HALTED it has no step (log entry 7). -/
def step (s : State) : Host.Outcome State Fault Refusal :=
  match s.runState with
  | .idle => .fault .noStepIdle
  | .halted => .fault .noStepHalted
  | .running =>
    match fetchDecode s with
    | .error f => .next (takeFault f s)
    | .ok i => exec i s

/-- The state with a table word's instruction where `step` fetches next (log entries 10 and 11). -/
def State.withFetchWord (s : State) (nbits w : Nat) : State := placeWords (tableWords nbits w) s

end Sys2Proof.Machine
end

