-- ==== Sys2Proof/Machine/Assembler.lean ====
section
/-! DEFINITION. The assembler of 30_encoding.md rules R82 and R83, from parsed lines to Words. The spec uses it for its
own test programs; it has no effect on the machine. Labels are numbers here and comments are gone (log entry 17). -/

namespace Sys2Proof.Machine

/-- The number of an operand (rule R82): a decimal integer or a label. -/
inductive AsmNumber where
  | lit (n : Int)
  | label (l : Nat)
deriving DecidableEq, Repr

/-- An operand (rule R82): `[n]` or `#n`. -/
inductive AsmOperand where
  | at (n : AsmNumber)
  | imm (n : AsmNumber)
deriving DecidableEq, Repr

/-- A line: an instruction, a label, literal Words, or one of the two pseudo-instructions (rules R82, R83).
DESIGN CHOICE (log entry 17): rule R82 speaks of literal Words after `.word` and leaves open whether one may be a
label; here it may, and places the label's index. -/
inductive AsmLine where
  | instr (op : Opcode) (operands : List AsmOperand)
  | label (l : Nat)
  | words (vs : List AsmNumber)
  | jmp (t : AsmOperand)
  | mov (x d : AsmOperand)
deriving DecidableEq, Repr

/-- A pseudo-instruction stands for exactly one real instruction (rule R83). -/
def expandPseudo : AsmLine → AsmLine
  | .jmp t => .instr .jnz [.imm (.lit 1), t]
  | .mov x d => .instr .add [x, .imm (.lit 0), d]
  | .instr op operands => .instr op operands
  | .label l => .label l
  | .words vs => .words vs

/-- How many Words a line places. -/
def asmLength (l : AsmLine) : Nat :=
  match expandPseudo l with
  | .instr op _ => instrLength op
  | .words vs => vs.length
  | .label _ | .jmp _ | .mov _ _ => 0

/-- Every label with the index of the next Word (rule R82). -/
def labelTable : Nat → List AsmLine → List (Nat × Nat)
  | _, [] => []
  | i, l :: ls =>
    match l with
    | .label n => (n, i) :: labelTable i ls
    | .instr _ _ | .words _ | .jmp _ | .mov _ _ => labelTable (i + asmLength l) ls

/-- The value of an operand number; none for a label that is not bound. -/
def asmNumber (table : List (Nat × Nat)) : AsmNumber → Option Int
  | .lit n => some n
  | .label l => (table.lookup l).map Int.ofNat

/-- The mode and the parameter of one operand. `#n` in a write-target slot is refused (rule R82). -/
def asmOperand (table : List (Nat × Nat)) (kind : SlotKind) (o : AsmOperand) : Option (Mode × Int) :=
  match o, kind with
  | .at n, _ => (asmNumber table n).map fun v => (.positional, v)
  | .imm n, .read => (asmNumber table n).map fun v => (.immediate, v)
  | .imm _, .write => none

/-- The modes and parameters of the operands of an opcode, slot `k` first. -/
def asmOperands (table : List (Nat × Nat)) (op : Opcode) : Nat → List AsmOperand → Option (List (Mode × Int))
  | _, [] => some []
  | k, o :: os => do
    let x ← asmOperand table (slotKind op k) o
    let xs ← asmOperands table op (k + 1) os
    return x :: xs

/-- The mode digits of a word, slot `k` in decimal digit `k + 1` (rule R71). -/
def modeDigits : Nat → List Mode → Int
  | _, [] => 0
  | k, m :: ms => modeDigit m * 10 ^ (k + 1) + modeDigits (k + 1) ms

/-- The Words of one line: an instruction is its canonical word followed by its operand numbers in slot order
(rules R80, R82); none for a wrong number of operands. -/
def asmLine (table : List (Nat × Nat)) (l : AsmLine) : Option (List Int) :=
  match expandPseudo l with
  | .instr op operands =>
    if operands.length = nparams op then do
      let xs ← asmOperands table op 1 operands
      return (opcodeNumber op + modeDigits 1 (xs.map Prod.fst)) :: xs.map Prod.snd
    else none
  | .words vs => vs.mapM (asmNumber table)
  | .label _ | .jmp _ | .mov _ _ => some []

/-- The image of a program, from index 0; none where a line is refused. -/
def assemble (ls : List AsmLine) : Option (List Int) :=
  (ls.mapM (asmLine (labelTable 0 ls))).map List.flatten

end Sys2Proof.Machine
end

