-- ==== Sys2Proof/Machine/HostInterface.lean ====
section
/-! DEFINITION. The host's and the environment's events (10_state.md part 7, rules R40 to R49, and
70_reset_and_hazards.md rule R230), and the status interface. An event is atomic and acts between steps (rule R40). -/

namespace Sys2Proof.Machine

/-- The events of rule R40 that come from outside the core. -/
inductive HostEvent where
  /-- `load(seq)` (rule R41). -/
  | load (seq : List Int)
  /-- `patch(a, v)` (rule R42). -/
  | patch (a v : Int)
  /-- `peek(a)` (rule R43). -/
  | peek (a : Int)
  /-- `start` (rule R44). -/
  | start
  /-- `reset` (rule R45). -/
  | reset
  /-- The status read (rule R48). -/
  | status
  /-- `supply(v)` by the input source (rule R46). -/
  | supply (v : Int)
  /-- `close()` by the input source (rule R46). -/
  | close
deriving DecidableEq, Repr

/-- What the status interface shows (rule R48). run_state is shown by its code (rule R27). -/
structure Status where
  runState : Nat
  pc : Int
  memLen : Nat
  faultCause : BitVec 3
  faultPc : Int
  faultValue : Int
  faultDetail : BitVec 3
  inputWait : Bool
deriving DecidableEq, Repr

/-- What an event returns to the host (rule R49). Host-side errors are no faults of the core (rule R210). -/
inductive HostReply where
  /-- Done, nothing to return. -/
  | ok
  /-- `load` failed (rule R41). -/
  | loadError
  /-- `patch` or `peek` named an index outside `[0, mem_len)` (rules R42, R43). -/
  | addressingFault (a : Int)
  /-- The Word that `peek` read. -/
  | word (v : Int)
  /-- The status fields. -/
  | status (r : Status)
  /-- The event is not allowed in this state (rule R49): nothing changed. -/
  | refused
deriving DecidableEq, Repr

/-- The encoding of run_state (rule R27). -/
def runStateCode : RunState → Nat
  | .idle => 0
  | .running => 1
  | .halted => 2

/-- `input_wait` (rule R34): RUNNING, the step at pc has decoded as READ with its write target resolved in range, the
input queue is empty and the source is not closed. -/
def inputWait (s : State) : Bool :=
  match s.runState, fetchDecode s, resolveWrite s 1 with
  | .running, .ok (.read _), .ok _ => s.inQueue.isEmpty && !s.inClosed
  | _, _, _ => false

/-- The status read (rule R48). -/
def statusOf (s : State) : Status :=
  { runState := runStateCode s.runState
    pc := s.pc
    memLen := s.memLen
    faultCause := s.faultCause
    faultPc := s.faultPc
    faultValue := s.faultValue
    faultDetail := s.faultDetail
    inputWait := inputWait s }

/-- `load(seq)` (rule R41), in IDLE only. A failed load leaves the contents unspecified and unobservable, since it sets
`mem_len` to 0; here nothing is listed then (log entry 6). -/
def hostLoad (seq : List Int) (s : State) : HostReply × State :=
  match s.runState with
  | .idle =>
    if seq.length ≤ s.cfg.memCapacity ∧ seq.all (inWord s.cfg) = true then
      (.ok, { s with mem := Memory.ofListFrom 0 seq, memLen := seq.length })
    else (.loadError, { s with mem := [], memLen := 0 })
  | .running => (.refused, s)
  | .halted => (.refused, s)

/-- `patch(a, v)` (rule R42), in IDLE only. The rule has `v` a Word; another integer has no move (log entry 13). -/
def hostPatch (a v : Int) (s : State) : HostReply × State :=
  match s.runState with
  | .idle =>
    if inWord s.cfg v then
      if inRange s a then (.ok, memWrite a v s) else (.addressingFault a, s)
    else (.refused, s)
  | .running => (.refused, s)
  | .halted => (.refused, s)

/-- `peek(a)` (rule R43), in IDLE and HALTED. -/
def hostPeek (a : Int) (s : State) : HostReply × State :=
  match s.runState with
  | .running => (.refused, s)
  | .idle => (if inRange s a then .word (wordAt s a) else .addressingFault a, s)
  | .halted => (if inRange s a then .word (wordAt s a) else .addressingFault a, s)

/-- `start` (rule R44), in IDLE only: the entry point is index 0. -/
def hostStart (s : State) : HostReply × State :=
  match s.runState with
  | .idle =>
    (.ok, { s with
      pc := 0
      faultCause := 0
      faultPc := 0
      faultValue := 0
      faultDetail := 0
      runState := .running })
  | .running => (.refused, s)
  | .halted => (.refused, s)

/-- `reset` (rules R45, R230), in every state, and the only way out of HALTED (rule R182). It does not change the
channels, which belong to the environment. Memory is unspecified and unobservable after it (log entry 5). -/
def hostReset (s : State) : HostReply × State :=
  (.ok, { State.resetWith s.cfg with
    inQueue := s.inQueue
    inClosed := s.inClosed
    outSeq := s.outSeq
    traceSeq := s.traceSeq })

/-- The status read, in every state; reading has no side effect (rule R48). -/
def hostStatus (s : State) : HostReply × State := (.status (statusOf s), s)

/-- `supply(v)` (rule R46), while the source is not closed; defined only for a Word (rule R147, log entry 13). -/
def hostSupply (v : Int) (s : State) : HostReply × State :=
  if !s.inClosed && inWord s.cfg v then (.ok, { s with inQueue := s.inQueue ++ [v] }) else (.refused, s)

/-- `close()` (rule R46), in every state. -/
def hostClose (s : State) : HostReply × State := (.ok, { s with inClosed := true })

/-- One event: its reply and the state after it. -/
def hostMove (e : HostEvent) (s : State) : HostReply × State :=
  match e with
  | .load seq => hostLoad seq s
  | .patch a v => hostPatch a v s
  | .peek a => hostPeek a s
  | .start => hostStart s
  | .reset => hostReset s
  | .status => hostStatus s
  | .supply v => hostSupply v s
  | .close => hostClose s

/-! Attaching the collaborators -/

/-- A new collaborator the driver attaches (rules R230, R232 step 4): an input source with its queue contents, open or
closed, an output sink, or a diagnostic logger. It is no event of rule R40's list, so it is no `HostEvent`. -/
inductive Collaborator where
  /-- An input source; a pre-supplied list is closed, a console or queue source begins open (rule R46). -/
  | source (queue : List Int) (closed : Bool)
  /-- An output sink. -/
  | sink
  /-- A diagnostic logger. -/
  | logger
deriving DecidableEq, Repr

/-- Attach a collaborator in place of the old one: rule R230 ("A driver that wants a fresh input or output sequence
replaces its collaborators"), rule R232 step 4. DESIGN CHOICE (log entry 20): the spec gives the attaching no event of
its own, so it is the model's that it happens in IDLE only (step 4 stands before `start`) and elsewhere changes
nothing, that a new source's queue replaces what was left of the old one, and that a new sink or logger has received
nothing; a queue that holds an integer that is no Word is not attached (rule R147). -/
def attach (c : Collaborator) (s : State) : State :=
  match s.runState with
  | .idle =>
    match c with
    | .source queue closed =>
      if queue.all (inWord s.cfg) then { s with inQueue := queue, inClosed := closed } else s
    | .sink => { s with outSeq := [] }
    | .logger => { s with traceSeq := [] }
  | .running => s
  | .halted => s

end Sys2Proof.Machine
end

