-- ==== Sys2Proof/Machine/System.lean ====
section
/-! DEFINITION. The core together with its host and environment: runs as lists of moves (rules R40, R112, R232). -/

namespace Sys2Proof.Machine

/-- One move of the whole system: a step of the core, an event from outside, or the attaching of a collaborator
(rule R232 step 4, log entry 20). The order of the moves is the only freedom a run has (rule R112); every order is
allowed (log entry 9). -/
inductive Move where
  | core
  | host (e : HostEvent)
  | attach (c : Collaborator)
deriving DecidableEq, Repr

/-- The state after one move. Where the core has no step, nothing changes. -/
def applyMove (m : Move) (s : State) : State :=
  match m with
  | .host e => (hostMove e s).2
  | .attach c => Machine.attach c s
  | .core =>
    match step s with
    | .next t => t
    | .fault _ => s
    | .refused _ => s

/-- The state after a list of moves. -/
def runMoves (ms : List Move) (s : State) : State := ms.foldl (fun t m => applyMove m t) s

/-- `k` steps of the core in a row. -/
def coreSteps (k : Nat) (s : State) : State := runMoves (List.replicate k .core) s

/-- The boot sequence of rule R232, steps 1 to 5: reset, load, patches, attach the input source (queue contents and
open or closed) and the output sink, start. How they are attached is the model's choice (`attach`, log entry 20).
Steps 6 and 7 are further moves: supply or close, and at the end the status read and `peek` (`runResult`). -/
def bootMoves (image : List Int) (patches : List (Int × Int)) (input : List Int) (closed : Bool) : List Move :=
  [.host .reset, .host (.load image)]
    ++ patches.map (fun p => .host (.patch p.1 p.2))
    ++ [.attach (.source input closed), .attach .sink, .host .start]

/-! Runs without an end in sight, and weak fairness -/

/-- The state after the first `n` moves of an infinite run, `moves n` being its move number `n`. -/
def runUpTo (moves : Nat → Move) : Nat → State → State
  | 0, s => s
  | n + 1, s => applyMove (moves n) (runUpTo moves n s)

/-- The core is RUNNING and not holding (rule R237). -/
def ready (s : State) : Bool := decide (s.runState = .running) && !inputWait s

/-- Weak fairness (rule R237): "a core that is RUNNING and not holding eventually takes its next step". No infinite run
leaves the core ready for ever from some point on without taking a step of it. An assumption about infinite runs, the
spec's own: no step checks it, and a statement that a run ends takes it as a premise (log entry 16). -/
def WeaklyFair (moves : Nat → Move) (s : State) : Prop :=
  ∀ n, (∀ m, n ≤ m → ready (runUpTo moves m s) = true) → ∃ m, n ≤ m ∧ moves m = .core

/-- A move that leaves the input and a started machine to the core: no supply, no close, no reset. An attaching is one,
because it does nothing once the machine is started (`attach`, log entry 20). -/
def leavesRunAlone : Move → Bool
  | .host (.supply _) | .host .close | .host .reset => false
  | .host (.load _) | .host (.patch _ _) | .host (.peek _) | .host .start | .host .status => true
  | .core | .attach _ => true

/-- A run has ended (rules R183, R184): run_state is HALTED, by HALT or by a fault; nothing else ends a run. -/
def ended (s : State) : Bool := decide (s.runState = .halted)

/-- The result of a run (rule R184): final memory, outputs and the fault status. It does not say what the input source
holds, nor how many steps were taken. -/
structure RunResult where
  finalMemory : List Int
  outputs : List Int
  faultCause : BitVec 3
  faultPc : Int
  faultValue : Int
  faultDetail : BitVec 3
deriving DecidableEq, Repr

/-- The result as the host reads it once the run has ended; none before. -/
def runResult (s : State) : Option RunResult :=
  if ended s then
    some
      { finalMemory := (List.range s.memLen).map s.mem.read
        outputs := s.outSeq
        faultCause := s.faultCause
        faultPc := s.faultPc
        faultValue := s.faultValue
        faultDetail := s.faultDetail }
  else none

end Sys2Proof.Machine
end

