-- ==== Sys2Proof/Safety.lean ====
section
/-! DEFINITION. The terms that statements about this machine are made in: when a slot resolves and when it faults,
written over the state alone; the state a fault leaves; the invariant of every state the machine can be in. -/

namespace Sys2Proof.Machine

/-- Index `a` is valid (rule R51). -/
abbrev Valid (s : State) (a : Int) : Prop := 0 ≤ a ∧ a < s.memLen

/-- Slot `k` is a read slot of mode `m`, its parameter is `p` and its operand is `v` (rule R105). -/
def ReadsAs (s : State) (k : Nat) (m : Mode) (p v : Int) : Prop :=
  Valid s (s.pc + k) ∧ wordAt s (s.pc + k) = p ∧
    match m with
    | .immediate => v = p
    | .positional => Valid s p ∧ wordAt s p = v

/-- Slot `k` is a write slot and its target is the valid index `t` (rule R105). -/
def WritesTo (s : State) (k : Nat) (t : Int) : Prop :=
  Valid s (s.pc + k) ∧ wordAt s (s.pc + k) = t ∧ Valid s t

/-- Slot `k` of a kind and mode resolves, to whatever value. -/
def SlotResolves (s : State) (k : Nat) (kind : SlotKind) (m : Mode) : Prop :=
  match kind with
  | .read => ∃ p v, ReadsAs s k m p v
  | .write => ∃ t, WritesTo s k t

/-- Slot `k` of a kind and mode raises AddressingFault, with this fault_value and fault_detail (rules R105, R200): its
parameter word lies outside memory (PARAM, 2), or its positional operand does (OPERAND_READ, 3), or its target does
(WRITE, 4). -/
def SlotFaults (s : State) (k : Nat) (kind : SlotKind) (m : Mode) (value : Int) (detail : BitVec 3) : Prop :=
  (¬ Valid s (s.pc + k) ∧ value = s.pc + k ∧ detail = 2) ∨
  (Valid s (s.pc + k) ∧ value = wordAt s (s.pc + k) ∧ ¬ Valid s value ∧
    match kind with
    | .read => m = .positional ∧ detail = 3
    | .write => detail = 4)

/-- The slots of an instruction, slot 1 first (rule R75). -/
def slotsOf : Instr → List (SlotKind × Mode)
  | .add a b d => [(.read, a), (.read, b), (.write, d)]
  | .mul a b d => [(.read, a), (.read, b), (.write, d)]
  | .read d => [(.write, d)]
  | .write a => [(.read, a)]
  | .jnz a t => [(.read, a), (.read, t)]
  | .jz a t => [(.read, a), (.read, t)]
  | .lt a b d => [(.read, a), (.read, b), (.write, d)]
  | .cmp a b d => [(.read, a), (.read, b), (.write, d)]
  | .halt => []

/-- The machine is RUNNING, its fetch is in range, and the word at pc decodes to `i` (rules R100 to R102). -/
def RunsNext (s : State) (i : Instr) : Prop :=
  s.runState = .running ∧ Valid s s.pc ∧ decode (wordAt s s.pc) = .ok i

/-- The state a fault leaves (rule R207), in the spec's codes (rules R28 to R31): only the fault registers and
run_state differ from `s`. -/
def faultedWith (s : State) (cause : BitVec 3) (value : Int) (detail : BitVec 3) : State :=
  { s with
    faultCause := cause
    faultPc := s.pc
    faultValue := value
    faultDetail := detail
    runState := .halted }

/-- The trace after a step of `s` has retired with this record (rule R148). -/
def tracedBy (s : State) (op : Opcode) (params values : List Int) : List TraceRecord :=
  if s.cfg.traceEnabled then s.traceSeq ++ [{ pc := s.pc, op := op, params := params, values := values }]
  else s.traceSeq

/-- The parameters and values that a trace record of `i` holds (rule R148): one of each per slot; a read slot's are its
parameter Word and its resolved value, a write slot's are both its target index. -/
def SlotsRecorded (s : State) (i : Instr) (params values : List Int) : Prop :=
  params.length = nparams (opcodeOf i) ∧ values.length = nparams (opcodeOf i) ∧
    ∀ (k : Nat) (kind : SlotKind) (m : Mode), (slotsOf i)[k]? = some (kind, m) →
      ∃ p v, params[k]? = some p ∧ values[k]? = some v ∧
        match kind with
        | .read => ReadsAs s (k + 1) m p v
        | .write => WritesTo s (k + 1) v ∧ p = v

/-- The step of `s` retires `i` (rule R100, the outcomes Next and Halt), said over the state alone: the machine runs it,
every slot resolves, a sum or product is a Word, and a READ has a value to take. -/
def Completes (s : State) (i : Instr) : Prop :=
  RunsNext s i ∧
    (∀ (k : Nat) (kind : SlotKind) (m : Mode), (slotsOf i)[k]? = some (kind, m) → SlotResolves s (k + 1) kind m) ∧
    match i with
    | .add a b _ => ∀ p x q y, ReadsAs s 1 a p x → ReadsAs s 2 b q y → inWord s.cfg (x + y) = true
    | .mul a b _ => ∀ p x q y, ReadsAs s 1 a p x → ReadsAs s 2 b q y → inWord s.cfg (x * y) = true
    | .read _ => s.inQueue ≠ []
    | .write _ | .jnz _ _ | .jz _ _ | .lt _ _ _ | .cmp _ _ _ | .halt => True

/-- The weight of a write slot's ignored mode digit in an instruction word (rules R71, R74): digit 4 of format F3,
digit 2 of READ, none otherwise. -/
def targetDigitWeight : Instr → Int
  | .add _ _ _ | .mul _ _ _ | .lt _ _ _ | .cmp _ _ _ => 10000
  | .read _ => 100
  | .write _ | .jnz _ _ | .jz _ _ | .halt => 0

/-- The machine without its trace: TRACE_ENABLED false and nothing recorded. -/
def untraced (s : State) : State :=
  { s with cfg := { s.cfg with traceEnabled := false }, traceSeq := [] }

/-- The state a step may depend on (rule R112): the parameters, memory, its length, pc, run_state and the input. -/
def SameCore (s t : State) : Prop :=
  s.cfg = t.cfg ∧ s.mem = t.mem ∧ s.memLen = t.memLen ∧ s.pc = t.pc ∧ s.runState = t.runState ∧
    s.inQueue = t.inQueue ∧ s.inClosed = t.inClosed

/-- fault_cause and fault_detail that rules R28 and R31 allow together. -/
def faultCodesOk (cause detail : BitVec 3) : Bool :=
  (cause == 0 && detail == 0)
    || (cause == 1 && (detail == 1 || detail == 2 || detail == 3 || detail == 4))
    || (cause == 2 && (detail == 1 || detail == 2))
    || (cause == 3 && detail == 0)
    || (cause == 4 && detail == 0)

/-- A trace record holds Words only. -/
def recordOk (c : Config) (r : TraceRecord) : Prop :=
  inWord c r.pc = true ∧ (∀ p ∈ r.params, inWord c p = true) ∧ ∀ v ∈ r.values, inWord c v = true

/-- The invariant: memory is canonical, holds Words only and lists only valid indices; every register and every value
in a channel is a Word; `mem_len` is at most MEM_CAPACITY; the fault registers hold a legal combination, hold a fault
only when HALTED, and then fault_pc is pc. -/
structure StateOk (s : State) : Prop where
  /-- MEM_CAPACITY is legal (rule R10). -/
  config : configOk s.cfg = true
  /-- The canonical form of memory. -/
  memForm : s.mem.wf = true
  /-- Only valid indices are listed (rule R23). -/
  memValid : ∀ e ∈ s.mem, e.1 < s.memLen
  /-- Memory holds Words (rule R23). -/
  memWords : ∀ e ∈ s.mem, inWord s.cfg e.2 = true
  /-- rule R24. -/
  memBound : s.memLen ≤ s.cfg.memCapacity
  /-- rules R25, R26. -/
  pcWord : inWord s.cfg s.pc = true
  /-- rule R29. -/
  faultPcWord : inWord s.cfg s.faultPc = true
  /-- rule R30. -/
  faultValueWord : inWord s.cfg s.faultValue = true
  /-- rules R28, R31. -/
  faultCodes : faultCodesOk s.faultCause s.faultDetail = true
  /-- rule R27: "A machine stopped by a fault is HALTED with a non-zero fault_cause". -/
  faultHalted : s.faultCause ≠ 0 → s.runState = .halted
  /-- rule R206: "pc still holds the faulting instruction's index, so fault_pc = pc". -/
  faultAtPc : s.faultCause ≠ 0 → s.faultPc = s.pc
  /-- rules R44, R230: without a fault the recorded values are 0. -/
  noFault : s.faultCause = 0 → s.faultPc = 0 ∧ s.faultValue = 0
  /-- rules R46, R147. -/
  inputWords : ∀ v ∈ s.inQueue, inWord s.cfg v = true
  /-- rule R47. -/
  outputWords : ∀ v ∈ s.outSeq, inWord s.cfg v = true
  /-- rule R148. -/
  traceWords : ∀ r ∈ s.traceSeq, recordOk s.cfg r

end Sys2Proof.Machine
end

