-- ==== Sys2Proof/Certificates/Slice0/Obligations.lean ====
section
/-! DEFINITION. The statements about the machine, each formalising numbered rules of spec/. -/

open Sys2Proof Sys2Proof.Machine

/-! Encoding -/

/-- 30_encoding.md rules R71, R74, R80 ([derived] in the spec) and R81: the words that decode to an instruction are exactly its canonical word, with any
ignored digits above its slots and with 0 or 1 as the ignored mode digit of a write slot; and only well-formed
instructions are decoded. With `d = 0` and `h = 0` it is the round trip of decoder and encoder. -/
def Obligations.DecodeIsCanonicalUpToIgnoredDigits : Prop :=
  ∀ (w : Int) (i : Instr), decode w = .ok i ↔
    wellFormed i = true ∧ ∃ d h : Int, (d = 0 ∨ d = 1) ∧ 0 ≤ h ∧
      w = encode i + d * targetDigitWeight i + h * 10 ^ (2 + nparams (opcodeOf i))

/-- Rules R72, R79 and R201: which words are refused, under which name, and the fault they raise when fetched, with
fault_value the word. -/
def Obligations.IllegalWordsRaiseDecodeFault : Prop :=
  ∀ s : State, s.runState = .running → Valid s s.pc →
    ((wordAt s s.pc < 0 ∨ ∀ op : Opcode, wordAt s s.pc % 100 ≠ opcodeNumber op) →
      step s = .next (faultedWith s 2 (wordAt s s.pc) 1)) ∧
    (∀ (op : Opcode) (k : Nat), 0 ≤ wordAt s s.pc → wordAt s s.pc % 100 = opcodeNumber op →
      1 ≤ k → k ≤ nparams op → 2 ≤ digit (k + 1) (wordAt s s.pc) →
      step s = .next (faultedWith s 2 (wordAt s s.pc) 2))

/-- 30_encoding.md rule R84 (an inference the spec marks as its own, [derived]), all nine examples: the assembler gives
the words, and each instruction word decodes to the instruction it stands for. -/
def Obligations.EncodingExamplesOfTheSpec : Prop :=
  (assemble [.instr .add [.at (.lit 9), .at (.lit 10), .at (.lit 3)]] = some [1, 9, 10, 3] ∧
    decode 1 = .ok (.add .positional .positional .positional)) ∧
  (assemble [.instr .mul [.at (.lit 4), .imm (.lit 3), .at (.lit 4)]] = some [1002, 4, 3, 4] ∧
    decode 1002 = .ok (.mul .positional .immediate .positional)) ∧
  (assemble [.instr .add [.imm (.lit 5), .at (.lit 7), .at (.lit 0)]] = some [101, 5, 7, 0] ∧
    decode 101 = .ok (.add .immediate .positional .positional)) ∧
  (assemble [.instr .jnz [.imm (.lit 1), .imm (.lit 0)]] = some [1105, 1, 0] ∧
    decode 1105 = .ok (.jnz .immediate .immediate)) ∧
  (assemble [.instr .jz [.at (.lit 6), .at (.lit 7)]] = some [6, 6, 7] ∧
    decode 6 = .ok (.jz .positional .positional)) ∧
  (assemble [.instr .lt [.imm (.lit (-3)), .at (.lit 2), .at (.lit 9)]] = some [107, -3, 2, 9] ∧
    decode 107 = .ok (.lt .immediate .positional .positional)) ∧
  (assemble [.instr .read [.at (.lit 9)]] = some [3, 9] ∧ decode 3 = .ok (.read .positional)) ∧
  (assemble [.instr .write [.imm (.lit (-1))]] = some [104, -1] ∧ decode 104 = .ok (.write .immediate)) ∧
  (assemble [.instr .halt []] = some [99] ∧ decode 99 = .ok .halt)

/-- 30_encoding.md rules R80 ([derived] in the spec) and R82: what the assembler accepts for an opcode is the canonical
word of a well-formed instruction of that opcode, followed by the operand numbers in slot order: `[n]` gives its slot
the positional mode, `#n` the immediate one, and the parameter is the number itself or the label's index. It refuses
`#n` in a write-target slot, as rule R82 says. That it also refuses a wrong number of operands and a label that is not
bound, and nothing else (not a literal that is no Word), is the model's choice (log entry 17). -/
def Obligations.AssemblerEmitsCanonicalWords : Prop :=
  ∀ (table : List (Nat × Nat)) (op : Opcode) (operands : List AsmOperand),
    (∀ ws : List Int, asmLine table (.instr op operands) = some ws →
      ∃ (i : Instr) (params : List Int), wellFormed i = true ∧ opcodeOf i = op ∧ ws = encodeWords i params ∧
        params.length = nparams op ∧ decode (encode i) = .ok i ∧
        ∀ (k : Nat) (o : AsmOperand), operands[k]? = some o →
          ∃ (m : Mode) (v : Int), (modesOf i)[k]? = some m ∧ params[k]? = some v ∧
            ((∃ n, o = .at n ∧ m = .positional ∧ asmNumber table n = some v) ∨
              ∃ n, o = .imm n ∧ m = .immediate ∧ asmNumber table n = some v)) ∧
    (asmLine table (.instr op operands) = none ↔
      operands.length ≠ nparams op ∨
      ∃ (k : Nat) (n : AsmNumber),
        (operands[k]? = some (.imm n) ∧ slotKind op (k + 1) = .write) ∨
        ((operands[k]? = some (.at n) ∨ operands[k]? = some (.imm n)) ∧ asmNumber table n = none))

/-! The step -/

/-- Rules R101 and R102: when RUNNING, the fetch out of range faults with FETCH, a refused word faults, and otherwise
the step is the execution of the decoded instruction, at the same state. -/
def Obligations.StepRunsTheDecodedInstruction : Prop :=
  ∀ s : State, s.runState = .running →
    (¬ Valid s s.pc → step s = .next (faultedWith s 1 s.pc 1)) ∧
    (Valid s s.pc →
      (decode (wordAt s s.pc) = .unknownOpcode → step s = .next (faultedWith s 2 (wordAt s s.pc) 1)) ∧
      (decode (wordAt s s.pc) = .badMode → step s = .next (faultedWith s 2 (wordAt s s.pc) 2)) ∧
      (∀ i : Instr, decode (wordAt s s.pc) = .ok i → step s = exec i s))

/-- Rule R100: a step has a next state exactly when RUNNING; the core has no step in IDLE and HALTED. That the model
names the missing step as a fault of its own is the model's choice (log entry 7). -/
def Obligations.StepHasANextStateOnlyWhenRunning : Prop :=
  ∀ s : State, ((∃ t, step s = .next t) ↔ s.runState = .running) ∧
    (s.runState = .idle → step s = .fault .noStepIdle) ∧
    (s.runState = .halted → step s = .fault .noStepHalted)

/-- Rules R105, R106 and R205: the first slot that does not resolve decides the fault of the step, for every
instruction, a jump that would not be taken included; the slots after it are not looked at. -/
def Obligations.FirstUnresolvedSlotFaults : Prop :=
  ∀ (i : Instr) (s : State) (k : Nat) (kind : SlotKind) (m : Mode) (value : Int) (detail : BitVec 3),
    (slotsOf i)[k]? = some (kind, m) →
    (∀ j kind' m', j < k → (slotsOf i)[j]? = some (kind', m') → SlotResolves s (j + 1) kind' m') →
    SlotFaults s (k + 1) kind m value detail →
    exec i s = .next (faultedWith s 1 value detail)

/-- Rules R110 and R207: a step that raises a fault changes nothing but the fault registers and run_state; fault_pc is
the pc of the step, which pc still holds, and the codes are legal. A running machine holds no fault
(`StateOk.faultHalted`), hence the premise. -/
def Obligations.FaultsArePrecise : Prop :=
  ∀ s t : State, s.faultCause = 0 → step s = .next t → t.faultCause ≠ 0 →
    t = faultedWith s t.faultCause t.faultValue t.faultDetail ∧ faultCodesOk t.faultCause t.faultDetail = true

/-! What each instruction does -/

/-- ADD (41_arithmetic.md, rule R130): the exact sum is written, the sources being read first. -/
def Obligations.AddWritesTheSum : Prop :=
  ∀ (s : State) (a b d : Mode) (p x q y t : Int),
    ReadsAs s 1 a p x → ReadsAs s 2 b q y → WritesTo s 3 t → inWord s.cfg (x + y) = true →
    exec (.add a b d) s = .next { s with
      mem := s.mem.write t.toNat (x + y)
      pc := s.pc + 4
      traceSeq := tracedBy s .add [p, q, t] [x, y, t] }

/-- MUL (41_arithmetic.md, rule R131): the exact product is written. -/
def Obligations.MulWritesTheProduct : Prop :=
  ∀ (s : State) (a b d : Mode) (p x q y t : Int),
    ReadsAs s 1 a p x → ReadsAs s 2 b q y → WritesTo s 3 t → inWord s.cfg (x * y) = true →
    exec (.mul a b d) s = .next { s with
      mem := s.mem.write t.toNat (x * y)
      pc := s.pc + 4
      traceSeq := tracedBy s .mul [p, q, t] [x, y, t] }

/-- LT (44_compare.md, rule R170): 1 or 0 by the signed comparison. -/
def Obligations.LtWritesTheComparison : Prop :=
  ∀ (s : State) (a b d : Mode) (p x q y t : Int),
    ReadsAs s 1 a p x → ReadsAs s 2 b q y → WritesTo s 3 t →
    exec (.lt a b d) s = .next { s with
      mem := s.mem.write t.toNat (if x < y then 1 else 0)
      pc := s.pc + 4
      traceSeq := tracedBy s .lt [p, q, t] [x, y, t] }

/-- CMP (44_compare.md, rule R171): 1 or 0 by equality of whole Words. -/
def Obligations.CmpWritesTheEquality : Prop :=
  ∀ (s : State) (a b d : Mode) (p x q y t : Int),
    ReadsAs s 1 a p x → ReadsAs s 2 b q y → WritesTo s 3 t →
    exec (.cmp a b d) s = .next { s with
      mem := s.mem.write t.toNat (if x = y then 1 else 0)
      pc := s.pc + 4
      traceSeq := tracedBy s .cmp [p, q, t] [x, y, t] }

/-- READ (42_io.md, rule R140): with input available, its head is stored and consumed. -/
def Obligations.ReadStoresTheNextInput : Prop :=
  ∀ (s : State) (d : Mode) (t x : Int) (rest : List Int),
    WritesTo s 1 t → s.inQueue = x :: rest →
    exec (.read d) s = .next { s with
      mem := s.mem.write t.toNat x
      pc := s.pc + 2
      inQueue := rest
      traceSeq := tracedBy s .read [t] [t] }

/-- WRITE (42_io.md, rule R144): its operand is appended to the output, and memory is not written. -/
def Obligations.WriteEmitsItsOperand : Prop :=
  ∀ (s : State) (a : Mode) (p x : Int),
    ReadsAs s 1 a p x →
    exec (.write a) s = .next { s with
      pc := s.pc + 2
      outSeq := s.outSeq ++ [x]
      traceSeq := tracedBy s .write [p] [x] }

/-- JNZ (43_control.md, rule R160): the resolved target when `a` is not 0, else pc + 3. -/
def Obligations.JnzJumpsOnNonZero : Prop :=
  ∀ (s : State) (a m : Mode) (p x q t : Int),
    ReadsAs s 1 a p x → ReadsAs s 2 m q t →
    exec (.jnz a m) s = .next { s with
      pc := if x ≠ 0 then t else s.pc + 3
      traceSeq := tracedBy s .jnz [p, q] [x, t] }

/-- JZ (43_control.md, rule R161): the resolved target when `a` is 0, else pc + 3. -/
def Obligations.JzJumpsOnZero : Prop :=
  ∀ (s : State) (a m : Mode) (p x q t : Int),
    ReadsAs s 1 a p x → ReadsAs s 2 m q t →
    exec (.jz a m) s = .next { s with
      pc := if x = 0 then t else s.pc + 3
      traceSeq := tracedBy s .jz [p, q] [x, t] }

/-- HALT (rule R180): it halts with pc unchanged and no fault cause written, and leaves one trace record; its words are
exactly those `w >= 0` with `w mod 100 = 99`, 99 being the canonical one; at any valid index such a word halts the
machine, and the only exception is that of a fetch out of range. -/
def Obligations.HaltStopsTheMachine : Prop :=
  (∀ w : Int, decode w = .ok .halt ↔ 0 ≤ w ∧ w % 100 = 99) ∧ encode .halt = 99 ∧
  (∀ s : State, s.runState = .running → ¬ Valid s s.pc → step s = .next (faultedWith s 1 s.pc 1)) ∧
  (∀ s : State, exec .halt s = .next { s with runState := .halted, traceSeq := tracedBy s .halt [] [] }) ∧
  (∀ s : State, s.runState = .running → Valid s s.pc → 0 ≤ wordAt s s.pc → wordAt s s.pc % 100 = 99 →
    step s = .next { s with runState := .halted, traceSeq := tracedBy s .halt [] [] })

/-- Rules R133 and R204: an exact result that is no Word is ArithmeticOverflow, with nothing written; under
W = UNBOUNDED every integer is a Word, and no instruction raises it; and only ADD and MUL raise it. -/
def Obligations.OverflowFaultsAndWritesNothing : Prop :=
  (∀ (s : State) (a b d : Mode) (p x q y t : Int),
    ReadsAs s 1 a p x → ReadsAs s 2 b q y → WritesTo s 3 t →
    (inWord s.cfg (x + y) = false → exec (.add a b d) s = .next (faultedWith s 4 0 0)) ∧
    (inWord s.cfg (x * y) = false → exec (.mul a b d) s = .next (faultedWith s 4 0 0))) ∧
  (∀ (c : Config) (v : Int), c.width = .unbounded → inWord c v = true) ∧
  (∀ (i : Instr) (s t : State), s.cfg.width = .unbounded → exec i s = .next t → s.faultCause ≠ 4 →
    t.faultCause ≠ 4) ∧
  (∀ (i : Instr) (s t : State), exec i s = .next t → s.faultCause ≠ 4 → t.faultCause = 4 →
    opcodeOf i = .add ∨ opcodeOf i = .mul)

/-- Rule R142: a READ whose target resolves, on an empty open channel, holds: the step changes nothing, however often
it is tried, and input_wait reads 1; no move changes anything but a supply, a close or a reset, the attaching of a
collaborator, which has its own statement, left aside; supply lets it retire with the value, and close makes it raise
InputExhausted. -/
def Obligations.ReadHoldsUntilSupplyOrClose : Prop :=
  ∀ (s : State) (d : Mode) (t : Int), RunsNext s (.read d) → WritesTo s 1 t → s.inQueue = [] → s.inClosed = false →
    step s = .next s ∧ inputWait s = true ∧ (∀ k, coreSteps k s = s) ∧
    (∀ m : Move, (∀ v, m ≠ .host (.supply v)) → m ≠ .host .close → m ≠ .host .reset →
      (∀ c, m ≠ .attach c) → applyMove m s = s) ∧
    (∀ v, inWord s.cfg v = true →
      step (applyMove (.host (.supply v)) s) = .next { s with
        mem := s.mem.write t.toNat v
        pc := s.pc + 2
        traceSeq := tracedBy s .read [t] [t] }) ∧
    step (applyMove (.host .close) s) = .next (faultedWith { s with inClosed := true } 3 0 0)

/-- Rules R143 and R202: on an empty closed channel a READ whose target resolves raises InputExhausted, and no value
is written; no other instruction raises it. -/
def Obligations.ReadRaisesInputExhausted : Prop :=
  (∀ (s : State) (d : Mode) (t : Int), WritesTo s 1 t → s.inQueue = [] → s.inClosed = true →
    exec (.read d) s = .next (faultedWith s 3 0 0)) ∧
  (∀ (i : Instr) (s t : State), exec i s = .next t → s.faultCause ≠ 3 → t.faultCause = 3 → opcodeOf i = .read)

/-- Rule R146: a READ with an out-of-range target raises AddressingFault whatever the channel holds, and consumes
nothing; and a READ that holds has resolved its target. -/
def Obligations.ReadChecksItsTargetBeforeInput : Prop :=
  (∀ (s : State) (d : Mode), Valid s (s.pc + 1) → ¬ Valid s (wordAt s (s.pc + 1)) →
    exec (.read d) s = .next (faultedWith s 1 (wordAt s (s.pc + 1)) 4)) ∧
  (∀ (s : State) (d : Mode), s.runState = .running → s.inQueue = [] → s.inClosed = false →
    exec (.read d) s = .next s → ∃ t, WritesTo s 1 t)

/-- Rule R165: a jump does not check its target; a target outside memory is written to pc, and the next step raises
AddressingFault at it, with fault_pc the target. -/
def Obligations.JumpTargetFaultsAtTheNextFetch : Prop :=
  ∀ (s : State) (i : Instr) (a m : Mode) (p x q target : Int),
    ((i = .jnz a m ∧ x ≠ 0) ∨ (i = .jz a m ∧ x = 0)) →
    RunsNext s i → ReadsAs s 1 a p x → ReadsAs s 2 m q target → ¬ Valid s target →
    ∃ t : State, step s = .next t ∧ t.pc = target ∧ t.mem = s.mem ∧ t.runState = .running ∧
      step t = .next (faultedWith t 1 target 1) ∧ (faultedWith t 1 target 1).faultPc = target

/-- Rule R164: a taken jump to its own pc is not a halt: the machine stays RUNNING at that pc with the same memory for
every number of steps. -/
def Obligations.SelfJumpNeverHalts : Prop :=
  ∀ (s : State) (i : Instr) (a m : Mode) (p x q : Int),
    ((i = .jnz a m ∧ x ≠ 0) ∨ (i = .jz a m ∧ x = 0)) →
    RunsNext s i → ReadsAs s 1 a p x → ReadsAs s 2 m q s.pc →
    ∀ k, (coreSteps k s).runState = .running ∧ (coreSteps k s).pc = s.pc ∧ (coreSteps k s).mem = s.mem ∧
      (coreSteps k s).outSeq = s.outSeq

/-- 41_arithmetic.md rule R134 (an inference the spec marks as its own, [derived]): the word 101 is ADD with an immediate and a positional operand, and the step leaves
`M[M[pc+3]] = M[pc+1] + M[M[pc+2]]` with the values taken before it. -/
def Obligations.AddImmediateWithPositional : Prop :=
  ∀ s : State, s.mem.wf = true → s.runState = .running → Valid s s.pc → wordAt s s.pc = 101 →
    Valid s (s.pc + 3) → Valid s (wordAt s (s.pc + 2)) → Valid s (wordAt s (s.pc + 3)) →
    inWord s.cfg (wordAt s (s.pc + 1) + wordAt s (wordAt s (s.pc + 2))) = true →
    ∃ t : State, step s = .next t ∧ t.pc = s.pc + 4 ∧ t.runState = .running ∧
      wordAt t (wordAt s (s.pc + 3)) = wordAt s (s.pc + 1) + wordAt s (wordAt s (s.pc + 2))

/-- 20_memory.md rules R59 and R63: the Word that a step stores at the next pc is the instruction the next step
executes, for each of the five instructions that store: a sum, a product, the result of a comparison (1 is ADD), and
an input value. -/
def Obligations.StoredWordIsExecutedNext : Prop :=
  ∀ (s : State) (d : Mode) (i : Instr), s.mem.wf = true → s.runState = .running →
    (∀ (a b : Mode) (p x q y : Int), ReadsAs s 1 a p x → ReadsAs s 2 b q y → WritesTo s 3 (s.pc + 4) →
      (inWord s.cfg (x + y) = true → decode (x + y) = .ok i →
        ∃ t, exec (.add a b d) s = .next t ∧ step t = exec i t) ∧
      (inWord s.cfg (x * y) = true → decode (x * y) = .ok i →
        ∃ t, exec (.mul a b d) s = .next t ∧ step t = exec i t) ∧
      (decode (if x < y then 1 else 0) = .ok i →
        ∃ t, exec (.lt a b d) s = .next t ∧ step t = exec i t) ∧
      (decode (if x = y then 1 else 0) = .ok i →
        ∃ t, exec (.cmp a b d) s = .next t ∧ step t = exec i t)) ∧
    (∀ (x : Int) (rest : List Int), WritesTo s 1 (s.pc + 2) → s.inQueue = x :: rest → decode x = .ok i →
      ∃ t, exec (.read d) s = .next t ∧ step t = exec i t)

/-! Frames -/

/-- ADD, MUL, LT and CMP, whatever their operands: every Word of memory but the one their third parameter names, the
length, the parameters, the input and the output are unchanged; either the fault registers and run_state are unchanged
too, or the instruction faulted and nothing else changed at all. pc and the trace may change. -/
def Obligations.FrameOfStoringArithmetic : Prop :=
  ∀ (i : Instr) (s t : State),
    (opcodeOf i = .add ∨ opcodeOf i = .mul ∨ opcodeOf i = .lt ∨ opcodeOf i = .cmp) → exec i s = .next t →
    (∀ a : Nat, (a : Int) ≠ wordAt s (s.pc + 3) → t.mem.read a = s.mem.read a) ∧
    t.memLen = s.memLen ∧ t.cfg = s.cfg ∧ t.inQueue = s.inQueue ∧ t.inClosed = s.inClosed ∧ t.outSeq = s.outSeq ∧
    ((t.runState = s.runState ∧ t.faultCause = s.faultCause ∧ t.faultPc = s.faultPc ∧ t.faultValue = s.faultValue ∧
        t.faultDetail = s.faultDetail) ∨
      t = faultedWith s t.faultCause t.faultValue t.faultDetail)

/-- READ: every Word of memory but the one its parameter names, the length, the parameters, the closed flag and the
output are unchanged; the input is unchanged or has lost its head; the fault registers and run_state are unchanged, or
it faulted and nothing else changed at all. -/
def Obligations.FrameOfRead : Prop :=
  ∀ (d : Mode) (s t : State), exec (.read d) s = .next t →
    (∀ a : Nat, (a : Int) ≠ wordAt s (s.pc + 1) → t.mem.read a = s.mem.read a) ∧
    t.memLen = s.memLen ∧ t.cfg = s.cfg ∧ t.inClosed = s.inClosed ∧ t.outSeq = s.outSeq ∧
    (t.inQueue = s.inQueue ∨ ∃ x, s.inQueue = x :: t.inQueue) ∧
    ((t.runState = s.runState ∧ t.faultCause = s.faultCause ∧ t.faultPc = s.faultPc ∧ t.faultValue = s.faultValue ∧
        t.faultDetail = s.faultDetail) ∨
      t = faultedWith s t.faultCause t.faultValue t.faultDetail)

/-- WRITE, JNZ, JZ and HALT store nothing: every Word of memory reads as before. Only WRITE changes the output, by one
value at its end; only HALT changes run_state without a fault. -/
def Obligations.FrameOfNonStoringInstructions : Prop :=
  ∀ (i : Instr) (s t : State),
    (opcodeOf i = .write ∨ opcodeOf i = .jnz ∨ opcodeOf i = .jz ∨ opcodeOf i = .halt) → exec i s = .next t →
    (∀ a : Nat, t.mem.read a = s.mem.read a) ∧
    t.memLen = s.memLen ∧ t.cfg = s.cfg ∧ t.inQueue = s.inQueue ∧ t.inClosed = s.inClosed ∧
    (t.outSeq = s.outSeq ∨ (opcodeOf i = .write ∧ ∃ v, t.outSeq = s.outSeq ++ [v])) ∧
    (((t.runState = s.runState ∨ opcodeOf i = .halt) ∧ t.faultCause = s.faultCause ∧ t.faultPc = s.faultPc ∧
        t.faultValue = s.faultValue ∧ t.faultDetail = s.faultDetail) ∨
      t = faultedWith s t.faultCause t.faultValue t.faultDetail)

/-! Whole-machine rules -/

/-- The invariant `StateOk` is kept by every step, from every state that meets it, a fault and a hold included. -/
def Obligations.StepKeepsTheInvariant : Prop :=
  ∀ s t : State, StateOk s → step s = .next t → StateOk t

/-- The invariant is kept by every event of the host and of the environment. It holds through choices of the model's
own: memory lists nothing after reset and after a failed load, where the spec leaves the contents unspecified (log
entries 5 and 6), and patch and supply of an integer that is no Word are refused (log entry 13). -/
def Obligations.HostEventsKeepTheInvariant : Prop :=
  ∀ (s : State) (e : HostEvent), StateOk s → StateOk (hostMove e s).2

/-- The invariant holds right after reset, for every legal choice of the parameters. Two things in it are the model's
choice: that memory lists nothing, where rule R230 leaves the contents unspecified (log entry 5), and the state of a
new machine's channels (log entry 8). -/
def Obligations.ResetMeetsTheInvariant : Prop :=
  StateOk State.reset ∧ ∀ c : Config, configOk c = true → StateOk (State.resetWith c)

/-- Rule R149: whatever was recorded and whether or not the trace is enabled, any run of steps and events goes through
the same states, outputs and inputs, but for the trace itself; and every event gets the same reply. -/
def Obligations.TraceNeverAffectsExecution : Prop :=
  (∀ (ms : List Move) (s : State), untraced (runMoves ms s) = runMoves ms (untraced s)) ∧
  (∀ (e : HostEvent) (s : State), (hostMove e (untraced s)).1 = (hostMove e s).1)

/-- 40_step_pipeline.md rule R112 (an inference the spec marks as its own, [derived]): memory, its length, pc, run_state and the input channel determine the step: two machines that agree on
them take steps to machines that agree on them, emit the same outputs, and raise the same fault. What else they hold
(fault registers, outputs so far, trace) is not read. -/
def Obligations.StepIsDeterminedByTheCoreState : Prop :=
  ∀ s s' t : State, SameCore s s' → step s = .next t →
    ∃ t' : State, step s' = .next t' ∧ SameCore t t' ∧
      (∃ out : List Int, t.outSeq = s.outSeq ++ out ∧ t'.outSeq = s'.outSeq ++ out) ∧
      ((∃ cause value detail, t = faultedWith s cause value detail ∧ t' = faultedWith s' cause value detail) ∨
        (t.faultCause = s.faultCause ∧ t'.faultCause = s'.faultCause))

/-- Rules R181 and R182: HALTED is left by reset alone: any other move leaves everything but the input channel
unchanged (the attaching of a collaborator, which has its own statement, left aside), a step and a start change nothing
at all, and start is refused; reset leads to IDLE. -/
def Obligations.OnlyResetLeavesHalted : Prop :=
  ∀ s : State, s.runState = .halted →
    applyMove .core s = s ∧ hostMove .start s = (.refused, s) ∧
    (applyMove (.host .reset) s).runState = .idle ∧
    ∀ m : Move, m ≠ .host .reset → (∀ c, m ≠ .attach c) →
      applyMove m s = { s with inQueue := (applyMove m s).inQueue, inClosed := (applyMove m s).inClosed }

/-- Rule R24: `mem_len` is written by load and reset alone, is 0 after reset, and never exceeds MEM_CAPACITY. -/
def Obligations.OnlyLoadAndResetWriteMemLen : Prop :=
  (∀ (m : Move) (s : State), m ≠ .host .reset → (∀ seq, m ≠ .host (.load seq)) →
    (applyMove m s).memLen = s.memLen) ∧
  (∀ s : State, (applyMove (.host .reset) s).memLen = 0) ∧ State.reset.memLen = 0 ∧
  (∀ (m : Move) (s : State), s.memLen ≤ s.cfg.memCapacity →
    (applyMove m s).memLen ≤ (applyMove m s).cfg.memCapacity)

/-- 10_state.md rule R32: the fault registers change only by a start, by a reset, or by a step of the core that takes a
fault, and never otherwise. -/
def Obligations.FaultRegistersHaveNoOtherWriter : Prop :=
  ∀ (m : Move) (s : State), m ≠ .host .start → m ≠ .host .reset →
    ((applyMove m s).faultCause = s.faultCause ∧ (applyMove m s).faultPc = s.faultPc ∧
      (applyMove m s).faultValue = s.faultValue ∧ (applyMove m s).faultDetail = s.faultDetail) ∨
    (m = .core ∧ s.runState = .running ∧ ∃ cause value detail, cause ≠ 0 ∧
      applyMove m s = faultedWith s cause value detail)

/-- Rule R141: the input queue changes only at its end by a supply, or loses its head to a READ that retires, which
stores that value; no other move consumes one; and a READ that can retire does consume exactly the head. The premise
is the canonical form of memory, which every step and event keeps (`StateOk.memForm`); attaching a new source is no consumption and has its own statement. -/
def Obligations.InputIsConsumedInOrderByRead : Prop :=
  (∀ (m : Move) (s : State), s.mem.wf = true → (∀ c, m ≠ .attach c) →
    (applyMove m s).inQueue = s.inQueue ∨
    (∃ v, m = .host (.supply v) ∧ (applyMove m s).inQueue = s.inQueue ++ [v]) ∨
    (m = .core ∧ ∃ d t x, RunsNext s (.read d) ∧ WritesTo s 1 t ∧ s.inQueue = x :: (applyMove m s).inQueue ∧
      wordAt (applyMove m s) t = x ∧ (applyMove m s).pc = s.pc + 2)) ∧
  (∀ (s : State) (d : Mode) (t x : Int) (rest : List Int), RunsNext s (.read d) → WritesTo s 1 t →
    s.inQueue = x :: rest → (applyMove .core s).inQueue = rest)

/-- Rule R148, one clause per kind of step. A step that retires emits exactly one record when TRACE_ENABLED and none
when not, with its own pc, its opcode, its raw parameter Words, and for each slot the resolved value or the target
index. A step that captures a fault emits none; a READ that holds emits none; and every step that does not retire is
one of these two. No event of the host emits one. -/
def Obligations.TraceRecordsEveryRetiredStep : Prop :=
  (∀ (s : State) (i : Instr), Completes s i →
    ∃ (t : State) (params values : List Int), step s = .next t ∧ t.faultCause = s.faultCause ∧
      SlotsRecorded s i params values ∧ t.traceSeq = tracedBy s (opcodeOf i) params values) ∧
  (∀ s t : State, s.faultCause = 0 → step s = .next t → t.faultCause ≠ 0 → t.traceSeq = s.traceSeq) ∧
  (∀ s t : State, inputWait s = true → step s = .next t → t.traceSeq = s.traceSeq) ∧
  (∀ s t : State, step s = .next t → (∀ i, ¬ Completes s i) →
    t.traceSeq = s.traceSeq ∧
      ((inputWait s = true ∧ t = s) ∨ ∃ cause value detail, cause ≠ 0 ∧ t = faultedWith s cause value detail)) ∧
  (∀ (e : HostEvent) (s : State), (hostMove e s).2.traceSeq = s.traceSeq)

/-- 42_io.md rule R145: the output changes only by one value at its end, the operand of a WRITE that retires.
Attaching a new sink has its own statement. -/
def Obligations.OutputIsAppendedByWriteAlone : Prop :=
  ∀ (m : Move) (s : State), (∀ c, m ≠ .attach c) →
    (applyMove m s).outSeq = s.outSeq ∨
    (m = .core ∧ ∃ a p v, RunsNext s (.write a) ∧ ReadsAs s 1 a p v ∧
      (applyMove m s).outSeq = s.outSeq ++ [v])

/-- 10_state.md rule R26 (an inference the spec marks as its own, [derived]): a sequential advance from a valid pc is a Word, at every width. -/
def Obligations.SequentialAdvanceIsAWord : Prop :=
  ∀ (s : State) (n : Nat), StateOk s → Valid s s.pc → 1 ≤ n → n ≤ 4 → inWord s.cfg (s.pc + n) = true

/-! The host's side -/

/-- Rule R41: what load does in IDLE when the sequence fits, when it does not, and that it is refused elsewhere. -/
def Obligations.LoadFillsMemoryOrReportsLoadError : Prop :=
  ∀ (s : State) (seq : List Int),
    (s.runState = .idle → seq.length ≤ s.cfg.memCapacity → (∀ v ∈ seq, inWord s.cfg v = true) →
      ∃ m : Memory, hostMove (.load seq) s = (.ok, { s with mem := m, memLen := seq.length }) ∧
        ∀ (i : Nat) (v : Int), seq[i]? = some v → m.read i = v) ∧
    (s.runState = .idle → (s.cfg.memCapacity < seq.length ∨ ∃ v ∈ seq, inWord s.cfg v = false) →
      ∃ m : Memory, hostMove (.load seq) s = (.loadError, { s with mem := m, memLen := 0 })) ∧
    (s.runState ≠ .idle → hostMove (.load seq) s = (.refused, s))

/-- Rules R42 and R43: patch in IDLE writes a Word at a valid index and reports any other index; peek outside RUNNING
reads a valid index and reports any other, and changes nothing; both are refused elsewhere. -/
def Obligations.PatchAndPeekAreBoundsChecked : Prop :=
  ∀ (s : State) (a v : Int), inWord s.cfg v = true →
    (s.runState = .idle → Valid s a → hostMove (.patch a v) s = (.ok, { s with mem := s.mem.write a.toNat v })) ∧
    (s.runState = .idle → ¬ Valid s a → hostMove (.patch a v) s = (.addressingFault a, s)) ∧
    (s.runState ≠ .idle → hostMove (.patch a v) s = (.refused, s)) ∧
    (s.runState ≠ .running → Valid s a → hostMove (.peek a) s = (.word (wordAt s a), s)) ∧
    (s.runState ≠ .running → ¬ Valid s a → hostMove (.peek a) s = (.addressingFault a, s)) ∧
    (s.runState = .running → hostMove (.peek a) s = (.refused, s))

/-- 10_state.md rule R44: start in IDLE enters at index 0 (the entry point is an inference the spec marks as its own,
[derived]) with the fault registers cleared; it is refused elsewhere. -/
def Obligations.StartEntersAtIndexZero : Prop :=
  ∀ s : State,
    (s.runState = .idle → hostMove .start s = (.ok, { s with
      pc := 0, faultCause := 0, faultPc := 0, faultValue := 0, faultDetail := 0, runState := .running })) ∧
    (s.runState ≠ .idle → hostMove .start s = (.refused, s))

/-- Rule R230: reset, from any state, and a new machine: every register at the value of the table, and reset leaves the
channels to the environment. -/
def Obligations.ResetSetsEveryRegister : Prop :=
  (∀ s : State, (hostMove .reset s).1 = .ok ∧ ∃ m : Memory, (hostMove .reset s).2 = { s with
      mem := m, runState := .idle, pc := 0, memLen := 0, faultCause := 0, faultPc := 0, faultValue := 0,
      faultDetail := 0 }) ∧
  (∀ s : State, inputWait (hostMove .reset s).2 = false) ∧
  State.reset.runState = .idle ∧ State.reset.pc = 0 ∧ State.reset.memLen = 0 ∧ State.reset.faultCause = 0 ∧
  State.reset.faultPc = 0 ∧ State.reset.faultValue = 0 ∧ State.reset.faultDetail = 0 ∧
  inputWait State.reset = false

/-- 70_reset_and_hazards.md rule R234 (an inference the spec marks as its own, [derived]): a machine started with an empty memory faults on its first fetch, whether it was never loaded, was
loaded with an empty sequence, or its load failed. -/
def Obligations.EmptyMachineFaultsAtItsFirstFetch : Prop :=
  ∀ (s : State) (seq : List Int),
    (s.runState = .idle → s.memLen = 0 →
      step (applyMove (.host .start) s) = .next (faultedWith (applyMove (.host .start) s) 1 0 1)) ∧
    (∀ ms : List Move,
      (ms = [.host .reset, .host .start] ∨ ms = [.host .reset, .host (.load []), .host .start] ∨
        (ms = [.host .reset, .host (.load seq), .host .start] ∧
          (s.cfg.memCapacity < seq.length ∨ ∃ v ∈ seq, inWord s.cfg v = false))) →
      step (runMoves ms s) = .next (faultedWith (runMoves ms s) 1 0 1))

/-- 10_state.md rule R34 (an inference the spec marks as its own, [derived]): input_wait is 1 exactly when the machine is RUNNING, the step at pc has decoded as READ with its target
in range, the queue is empty and the source is not closed. -/
def Obligations.InputWaitShowsAHeldRead : Prop :=
  ∀ s : State, inputWait s = true ↔
    s.inQueue = [] ∧ s.inClosed = false ∧ ∃ d t, RunsNext s (.read d) ∧ WritesTo s 1 t

/-- 10_state.md rules R46 and R49: supply appends a Word while the source is open and is refused after close; close
closes it. An integer that is no Word is refused too, which is the model's choice (log entry 13). -/
def Obligations.SupplyAndCloseActOnTheInputAlone : Prop :=
  ∀ (s : State) (v : Int),
    (s.inClosed = false → inWord s.cfg v = true →
      hostMove (.supply v) s = (.ok, { s with inQueue := s.inQueue ++ [v] })) ∧
    (s.inClosed = true ∨ inWord s.cfg v = false → hostMove (.supply v) s = (.refused, s)) ∧
    hostMove .close s = (.ok, { s with inClosed := true })

/-- 10_state.md rule R49 and 60_exceptions.md rule R210: an event that is refused or reports an addressing error
changes nothing, and no event but start and reset changes the fault registers or run_state. -/
def Obligations.RefusedEventsChangeNothing : Prop :=
  ∀ (e : HostEvent) (s : State),
    ((hostMove e s).1 = .refused → (hostMove e s).2 = s) ∧
    (∀ a, (hostMove e s).1 = .addressingFault a → (hostMove e s).2 = s) ∧
    (e ≠ .start → e ≠ .reset → (hostMove e s).2.runState = s.runState ∧
      (hostMove e s).2.faultCause = s.faultCause ∧ (hostMove e s).2.faultPc = s.faultPc ∧
      (hostMove e s).2.faultValue = s.faultValue ∧ (hostMove e s).2.faultDetail = s.faultDetail)

/-- 20_memory.md rule R66 (an inference the spec marks as its own, [derived]): after a load that succeeds, peek at every index gives back the sequence. -/
def Obligations.PeekReturnsTheLoadedSequence : Prop :=
  ∀ (s : State) (seq : List Int) (i : Nat) (v : Int), (hostMove (.load seq) s).1 = .ok → seq[i]? = some v →
    (hostMove (.peek i) (hostMove (.load seq) s).2).1 = .word v

/-- 70_reset_and_hazards.md rules R231 and R232, with 10_state.md rules R41, R42, R44 and R46: after the boot sequence,
from any state and with any patches that name indices of the image, the machine is RUNNING at index 0 with no fault,
its memory is the patched image, the input channel is exactly the source attached, and the output is empty. That pc
is 0 is the spec's own inference (R44, R231); the canonical form of memory is the model's choice (log entry 5), and so
is how source and sink are attached (log entry 20). -/
def Obligations.BootRunsTheImageFromIndexZero : Prop :=
  ∀ (s : State) (image input : List Int) (patches : List (Int × Int)) (closed : Bool),
    image.length ≤ s.cfg.memCapacity → (∀ v ∈ image, inWord s.cfg v = true) →
    (∀ p ∈ patches, 0 ≤ p.1 ∧ p.1 < image.length ∧ inWord s.cfg p.2 = true) →
    (∀ v ∈ input, inWord s.cfg v = true) →
    ∃ m : Memory, m.wf = true ∧
      (∀ (i : Nat) (v : Int), (patches.foldl (fun im p => im.set p.1.toNat p.2) image)[i]? = some v → m.read i = v) ∧
      runMoves (bootMoves image patches input closed) s = { s with
        mem := m, memLen := image.length, pc := 0, runState := .running
        faultCause := 0, faultPc := 0, faultValue := 0, faultDetail := 0
        inQueue := input, inClosed := closed, outSeq := [] }

/-- Rule R183: a run ends exactly by a HALT that retires or by a fault; no other move ends it, whatever pc becomes. -/
def Obligations.RunEndsOnlyByHaltOrFault : Prop :=
  ∀ (m : Move) (s : State), ended s = false →
    (ended (applyMove m s) = true ↔
      m = .core ∧ (RunsNext s .halt ∨
        ∃ cause value detail, cause ≠ 0 ∧ step s = .next (faultedWith s cause value detail)))

/-- Rule R48: the status read answers, in every state, the eight fields, and changes nothing. run_state is shown by its
code (rule R27: 0, 1 and 2). -/
def Obligations.StatusReadShowsTheFields : Prop :=
  ∀ s : State, ∃ r : Status, hostMove .status s = (.status r, s) ∧
    (s.runState = .idle → r.runState = 0) ∧ (s.runState = .running → r.runState = 1) ∧
    (s.runState = .halted → r.runState = 2) ∧
    r.pc = s.pc ∧ r.memLen = s.memLen ∧ r.faultCause = s.faultCause ∧ r.faultPc = s.faultPc ∧
    r.faultValue = s.faultValue ∧ r.faultDetail = s.faultDetail ∧ r.inputWait = inputWait s

/-- 70_reset_and_hazards.md rules R230 and R232 step 4: in IDLE a driver replaces its collaborators, each alone: a source
with its contents, open or closed, whatever the old one held and whether or not it was closed; a sink; a logger. It
keeps the invariant. That this happens in IDLE only, and what a new sink has received, are the model's choice (log
entry 20), and so is that a queue with an integer that is no Word is not attached (log entry 13). -/
def Obligations.AttachReplacesOneCollaborator : Prop :=
  (∀ (s : State) (queue : List Int) (closed : Bool), s.runState = .idle →
    ((∀ v ∈ queue, inWord s.cfg v = true) →
      applyMove (.attach (.source queue closed)) s = { s with inQueue := queue, inClosed := closed }) ∧
    ((∃ v ∈ queue, inWord s.cfg v = false) → applyMove (.attach (.source queue closed)) s = s) ∧
    applyMove (.attach .sink) s = { s with outSeq := [] } ∧
    applyMove (.attach .logger) s = { s with traceSeq := [] }) ∧
  (∀ (s : State) (c : Collaborator), s.runState ≠ .idle → applyMove (.attach c) s = s) ∧
  (∀ (s : State) (c : Collaborator), StateOk s → StateOk (applyMove (.attach c) s))

/-- 70_reset_and_hazards.md rule R237 with 45_halt.md rule R186 ([derived] in the spec): if the core's own steps from `s`
reach the end of the run, then every weakly fair infinite run from `s` in which no supply, close or reset interferes
reaches that same end. Without fairness there is a run from every state that goes nowhere. The fairness of R237 is the
spec's own assumption, a premise here. Two things are the model's: that fairness is read in its weak form (log entry
16, DEDUCED), and that an attaching among the moves does nothing once the machine is started (log entry 20). -/
def Obligations.FairRunsReachTheEnd : Prop :=
  (∀ (moves : Nat → Move) (s : State) (k : Nat), WeaklyFair moves s → (∀ n, leavesRunAlone (moves n) = true) →
    ended (coreSteps k s) = true → ∃ n, runUpTo moves n s = coreSteps k s) ∧
  (∀ s : State, ∃ moves : Nat → Move, (∀ n, leavesRunAlone (moves n) = true) ∧ ∀ n, runUpTo moves n s = s)
end

