-- ==== Sys2Proof/Laws/Assembler.lean ====
section
/-! SUPPORT. What the parts of the assembler answer. -/

namespace Sys2Proof.Machine

/-- An operand that is accepted gives its own mode and number; only `[n]` is accepted in a write-target slot. -/
theorem asmOperand_some {table : List (Nat × Nat)} {kind : SlotKind} {o : AsmOperand} {m : Mode} {v : Int}
    (h : asmOperand table kind o = some (m, v)) :
    ((∃ n, o = .at n ∧ m = .positional ∧ asmNumber table n = some v) ∨
      ∃ n, o = .imm n ∧ m = .immediate ∧ asmNumber table n = some v) ∧ (kind = .write → m = .positional) := by
  rcases o with n | n
  · obtain ⟨h1, rfl⟩ : asmNumber table n = some v ∧ Mode.positional = m := by simpa [asmOperand] using h
    exact ⟨Or.inl ⟨n, rfl, rfl, h1⟩, fun _ => rfl⟩
  · cases kind with
    | write => cases h
    | read =>
      obtain ⟨h1, rfl⟩ : asmNumber table n = some v ∧ Mode.immediate = m := by simpa [asmOperand] using h
      exact ⟨Or.inr ⟨n, rfl, rfl, h1⟩, fun hk => by cases hk⟩

/-- An operand is refused exactly when it is `#n` in a write-target slot, or its label is not bound. -/
theorem asmOperand_none {table : List (Nat × Nat)} {kind : SlotKind} {o : AsmOperand} :
    asmOperand table kind o = none ↔
      ∃ n, (o = .imm n ∧ kind = .write) ∨ ((o = .at n ∨ o = .imm n) ∧ asmNumber table n = none) := by
  cases o <;> cases kind <;> simp [asmOperand]

end Sys2Proof.Machine
end

