-- ==== Sys2Proof/Laws/Encoding.lean ====
section
/-! SUPPORT. The decoder and its parts, each characterised once. -/

namespace Sys2Proof

/-- A number selects an opcode exactly when it is that opcode's number. -/
theorem opcodeOfNumber_some {c : Int} {op : Opcode} : opcodeOfNumber c = some op ↔ c = opcodeNumber op := by
  constructor
  · unfold opcodeOfNumber
    intro h
    split_ifs at h <;> cases h <;> assumption
  · rintro rfl; cases op <;> rfl

/-- A number selects no opcode exactly when it is no opcode's number. -/
theorem opcodeOfNumber_none {c : Int} : opcodeOfNumber c = none ↔ ∀ op, c ≠ opcodeNumber op := by
  rw [Option.eq_none_iff_forall_ne_some]
  simp only [ne_eq, opcodeOfNumber_some]

/-- The mode of a read slot is its digit's. -/
theorem slotMode_read {op : Opcode} {w : Int} {k : Nat} {m : Mode} (hk : slotKind op k = .read) :
    slotMode op w k = some m ↔ digit (k + 1) w = modeDigit m := by
  unfold slotMode
  rw [hk]
  split_ifs with h1 h2 <;> cases m <;> simp [modeDigit, *]

/-- A write slot is positional for either legal digit. -/
theorem slotMode_write {op : Opcode} {w : Int} {k : Nat} {m : Mode} (hk : slotKind op k = .write) :
    slotMode op w k = some m ↔ m = .positional ∧ (digit (k + 1) w = 0 ∨ digit (k + 1) w = 1) := by
  unfold slotMode
  rw [hk]
  split_ifs with h1 h2 <;> cases m <;> simp [*]

/-- A slot has no mode exactly when its digit is neither 0 nor 1. -/
theorem slotMode_none {op : Opcode} {w : Int} {k : Nat} :
    slotMode op w k = none ↔ digit (k + 1) w ≠ 0 ∧ digit (k + 1) w ≠ 1 := by
  unfold slotMode
  split_ifs with h1 h2
  · simp [h1]
  · cases slotKind op k <;> simp [h2]
  · simp [h1, h2]

/-- The modes of a word make an instruction of the opcode they were read for. -/
theorem opcodeOf_instrOf {op : Opcode} {w : Int} {i : Instr} (h : instrOf op w = some i) : opcodeOf i = op := by
  rcases h1 : slotMode op w 1 with _ | a <;> rcases h2 : slotMode op w 2 with _ | b <;>
    rcases h3 : slotMode op w 3 with _ | c <;> cases op <;> simp [instrOf, h1, h2, h3] at h <;> subst h <;> rfl

/-- A word decodes to an instruction exactly when it is not negative, selects its opcode, and gives its modes. -/
theorem decode_eq_ok {w : Int} {i : Instr} :
    decode w = .ok i ↔ 0 ≤ w ∧ w % 100 = opcodeNumber (opcodeOf i) ∧ instrOf (opcodeOf i) w = some i := by
  unfold decode
  by_cases h : w < 0
  · simp [h]
  · simp only [h, if_false]
    constructor
    · intro hd
      split at hd
      · cases hd
      · next op hop =>
        split at hd
        · cases hd
        · next j hj =>
          cases hd
          obtain rfl := opcodeOf_instrOf hj
          exact ⟨by omega, opcodeOfNumber_some.mp hop, hj⟩
    · rintro ⟨_, h1, h2⟩
      rw [opcodeOfNumber_some.mpr h1]
      simp [h2]

end Sys2Proof
end

