-- ==== Sys2Proof/Laws/Memory.lean ====
section
/-! SUPPORT. Memory: reading back what was written, and that every memory operation keeps the canonical form. -/

namespace Sys2Proof.Machine

/-- The canonical form is weaker for a lower bound. -/
theorem Memory.wfFrom_mono {m : Memory} {lo hi : Nat} (h : Memory.wfFrom hi m = true) (le : lo ≤ hi) :
    Memory.wfFrom lo m = true := by
  cases m with
  | nil => rfl
  | cons e rest =>
    simp only [Memory.wfFrom, Bool.and_eq_true, decide_eq_true_eq] at h ⊢
    exact ⟨⟨by omega, h.1.2⟩, h.2⟩

/-- No entry of a canonical memory lies below its bound. -/
theorem Memory.le_of_mem {m : Memory} {lo : Nat} (h : Memory.wfFrom lo m = true) :
    ∀ e ∈ m, lo ≤ e.1 := by
  induction m generalizing lo with
  | nil => simp
  | cons e rest ih =>
    simp only [Memory.wfFrom, Bool.and_eq_true, decide_eq_true_eq] at h
    intro e' he'
    rcases List.mem_cons.mp he' with rfl | hr
    · exact h.1.1
    · have := ih h.2 e' hr; omega

/-- An index below every entry reads as unlisted. -/
theorem Memory.read_below {m : Memory} {a : Nat} (h : ∀ e ∈ m, a < e.1) : m.read a = Memory.unlisted := by
  induction m with
  | nil => rfl
  | cons e rest ih =>
    have hlt := h e (by simp)
    simp only [Memory.read]
    rw [if_neg (by omega)]
    exact ih fun e' he' => h e' (by simp [he'])

/-- Reading after an entry is put in front. -/
theorem Memory.read_entry (m : Memory) (a b : Nat) (v : Int) (h : ∀ e ∈ m, a < e.1) :
    (Memory.entry a v m).read b = if b = a then v else m.read b := by
  unfold Memory.entry
  by_cases hv : v = Memory.unlisted
  · by_cases hb : b = a
    · subst hb; simp [hv, Memory.read_below h]
    · simp [hv, hb]
  · simp [hv, Memory.read]

/-- The bound of a canonical tail. -/
theorem Memory.lt_of_wfFrom_succ {m : Memory} {a : Nat} (h : Memory.wfFrom (a + 1) m = true) : ∀ e ∈ m, a < e.1 :=
  fun e he => Memory.le_of_mem h e he

/-- Putting an entry in front keeps the canonical form. -/
theorem Memory.wfFrom_entry {m : Memory} {lo a : Nat} {v : Int} (hlo : lo ≤ a)
    (h : Memory.wfFrom (a + 1) m = true) : Memory.wfFrom lo (Memory.entry a v m) = true := by
  unfold Memory.entry
  by_cases hv : v = Memory.unlisted
  · simpa [hv] using Memory.wfFrom_mono h (by omega)
  · simp [hv, Memory.wfFrom, hlo, h]

/-- A write keeps the canonical form. -/
theorem Memory.wfFrom_write {m : Memory} {lo a : Nat} {v : Int} (hlo : lo ≤ a)
    (h : Memory.wfFrom lo m = true) : Memory.wfFrom lo (m.write a v) = true := by
  induction m generalizing lo with
  | nil => exact Memory.wfFrom_entry hlo rfl
  | cons e rest ih =>
    obtain ⟨b, u⟩ := e
    simp only [Memory.wfFrom, Bool.and_eq_true, decide_eq_true_eq] at h
    simp only [Memory.write]
    split
    · refine Memory.wfFrom_entry hlo ?_
      simp only [Memory.wfFrom, Bool.and_eq_true, decide_eq_true_eq]
      exact ⟨⟨by omega, h.1.2⟩, h.2⟩
    · split
      · next hab => subst hab; exact Memory.wfFrom_entry hlo h.2
      · simp only [Memory.wfFrom, Bool.and_eq_true, decide_eq_true_eq]
        exact ⟨h.1, ih (by omega) h.2⟩

/-- A write keeps the canonical form. -/
theorem Memory.wf_write {m : Memory} (a : Nat) (v : Int) (h : m.wf = true) : (m.write a v).wf = true :=
  Memory.wfFrom_write (Nat.zero_le a) h

/-- Writing a sequence keeps the canonical form. -/
theorem Memory.wf_writeFrom (vs : List Int) {m : Memory} (i : Nat) (h : m.wf = true) :
    (Memory.writeFrom m i vs).wf = true := by
  induction vs generalizing m i with
  | nil => exact h
  | cons v vs ih => exact ih (i + 1) (Memory.wf_write i v h)

/-- The memory of a sequence is canonical from its first index. -/
theorem Memory.wfFrom_ofListFrom (i : Nat) (vs : List Int) :
    Memory.wfFrom i (Memory.ofListFrom i vs) = true := by
  induction vs generalizing i with
  | nil => rfl
  | cons v vs ih => exact Memory.wfFrom_entry (le_refl i) (ih (i + 1))

/-- The memory of a sequence is canonical. -/
theorem Memory.wf_ofListFrom (i : Nat) (vs : List Int) : (Memory.ofListFrom i vs).wf = true :=
  Memory.wfFrom_mono (Memory.wfFrom_ofListFrom i vs) (Nat.zero_le i)

/-- Memory right after reset is canonical. -/
theorem Memory.wf_reset : State.reset.mem.wf = true := rfl

/-- A write leaves every other index alone, in any memory. -/
theorem Memory.read_write_other (m : Memory) {a b : Nat} (v : Int) (h : b ≠ a) :
    (m.write a v).read b = m.read b := by
  induction m with
  | nil => by_cases hv : v = Memory.unlisted <;> simp [Memory.write, Memory.entry, hv, Memory.read, h]
  | cons e rest ih =>
    obtain ⟨c, u⟩ := e
    simp only [Memory.write]
    split
    · by_cases hv : v = Memory.unlisted <;> simp [Memory.entry, hv, Memory.read, h]
    · split
      · next hac => subst hac; by_cases hv : v = Memory.unlisted <;> simp [Memory.entry, hv, Memory.read, h]
      · simp [Memory.read, ih]

/-- Reading back a written index. -/
theorem Memory.read_write_same {m : Memory} {lo : Nat} (a : Nat) (v : Int) (h : Memory.wfFrom lo m = true) :
    (m.write a v).read a = v := by
  induction m generalizing lo with
  | nil => simp [Memory.write, Memory.read_entry]
  | cons e rest ih =>
    obtain ⟨b, u⟩ := e
    have hb := h
    simp only [Memory.wfFrom, Bool.and_eq_true, decide_eq_true_eq] at h
    simp only [Memory.write]
    split
    · next hab =>
      rw [Memory.read_entry _ _ _ _ (fun e he => ?_)]
      · simp
      · rcases List.mem_cons.mp he with rfl | hr
        · exact hab
        · have := Memory.le_of_mem h.2 e hr; omega
    · split
      · next hab => subst hab; rw [Memory.read_entry _ _ _ _ (Memory.lt_of_wfFrom_succ h.2)]; simp
      · next h1 h2 => simp only [Memory.read]; rw [if_neg h2]; exact ih h.2

/-- Every read of a memory after one write. -/
theorem Memory.read_write {m : Memory} (a b : Nat) (v : Int) (h : m.wf = true) :
    (m.write a v).read b = if b = a then v else m.read b := by
  by_cases hb : b = a
  · subst hb; simp [Memory.read_write_same b v h]
  · simp [hb, Memory.read_write_other m v hb]

/-- The entries of a memory with one more entry in front. -/
theorem Memory.mem_entry {m : Memory} {a : Nat} {v : Int} {e : Nat × Int} (h : e ∈ Memory.entry a v m) :
    e = (a, v) ∨ e ∈ m := by
  unfold Memory.entry at h
  split at h
  · exact Or.inr h
  · exact List.mem_cons.mp h

/-- Every entry after a write is the written one or was there before. -/
theorem Memory.mem_write {m : Memory} {a : Nat} {v : Int} {e : Nat × Int} (h : e ∈ m.write a v) :
    e = (a, v) ∨ e ∈ m := by
  induction m with
  | nil => exact Memory.mem_entry h
  | cons c rest ih =>
    obtain ⟨b, u⟩ := c
    simp only [Memory.write] at h
    split at h
    · exact Memory.mem_entry h
    · split at h
      · rcases Memory.mem_entry h with he | he
        · exact Or.inl he
        · exact Or.inr (List.mem_cons_of_mem _ he)
      · rcases List.mem_cons.mp h with he | he
        · exact Or.inr (by simp [he])
        · rcases ih he with hi | hi
          · exact Or.inl hi
          · exact Or.inr (List.mem_cons_of_mem _ hi)

/-- Every entry of the memory of a sequence holds one of its Words, at an index within it. -/
theorem Memory.mem_ofListFrom {i : Nat} {vs : List Int} {e : Nat × Int} (h : e ∈ Memory.ofListFrom i vs) :
    e.1 < i + vs.length ∧ e.2 ∈ vs := by
  induction vs generalizing i with
  | nil => simp [Memory.ofListFrom] at h
  | cons v vs ih =>
    rcases Memory.mem_entry h with rfl | he
    · simp
    · have := ih he
      simp only [List.length_cons, List.mem_cons]
      exact ⟨by omega, Or.inr this.2⟩

/-- The Word read at an index is an entry, or the index is unlisted. -/
theorem Memory.read_mem (m : Memory) (a : Nat) : m.read a = Memory.unlisted ∨ (a, m.read a) ∈ m := by
  induction m with
  | nil => exact Or.inl rfl
  | cons e rest ih =>
    obtain ⟨b, u⟩ := e
    by_cases h : a = b
    · subst h; right; simp [Memory.read]
    · simp only [Memory.read, h, if_false]
      rcases ih with hi | hi
      · exact Or.inl hi
      · exact Or.inr (List.mem_cons_of_mem _ hi)

/-- The memory of a sequence reads as the sequence. -/
theorem Memory.read_ofListFrom (i : Nat) (vs : List Int) (k : Nat) :
    (Memory.ofListFrom i vs).read (i + k) = vs.getD k Memory.unlisted := by
  induction vs generalizing i k with
  | nil => rfl
  | cons v vs ih =>
    have hlt : ∀ e ∈ Memory.ofListFrom (i + 1) vs, i < e.1 :=
      fun e he => Memory.le_of_mem (Memory.wfFrom_ofListFrom (i + 1) vs) e he
    simp only [Memory.ofListFrom]
    rw [Memory.read_entry _ _ _ _ hlt]
    cases k with
    | zero => simp
    | succ k =>
      rw [if_neg (by omega), show i + (k + 1) = (i + 1) + k by omega, ih]
      simp

end Sys2Proof.Machine
end

