-- ==== Sys2Proof/Laws/State.lean ====
section
/-! SUPPORT. The state record: one lemma per field per update, so that no proof unfolds a record update. -/

namespace Sys2Proof.Machine

/-! memWrite -/

@[simp] theorem memWrite_cfg (a v : Int) (s : State) :
    (memWrite a v s).cfg = s.cfg := rfl
@[simp] theorem memWrite_mem (a v : Int) (s : State) :
    (memWrite a v s).mem = s.mem.write a.toNat v := rfl
@[simp] theorem memWrite_memLen (a v : Int) (s : State) :
    (memWrite a v s).memLen = s.memLen := rfl
@[simp] theorem memWrite_pc (a v : Int) (s : State) :
    (memWrite a v s).pc = s.pc := rfl
@[simp] theorem memWrite_runState (a v : Int) (s : State) :
    (memWrite a v s).runState = s.runState := rfl
@[simp] theorem memWrite_faultCause (a v : Int) (s : State) :
    (memWrite a v s).faultCause = s.faultCause := rfl
@[simp] theorem memWrite_faultPc (a v : Int) (s : State) :
    (memWrite a v s).faultPc = s.faultPc := rfl
@[simp] theorem memWrite_faultValue (a v : Int) (s : State) :
    (memWrite a v s).faultValue = s.faultValue := rfl
@[simp] theorem memWrite_faultDetail (a v : Int) (s : State) :
    (memWrite a v s).faultDetail = s.faultDetail := rfl
@[simp] theorem memWrite_inQueue (a v : Int) (s : State) :
    (memWrite a v s).inQueue = s.inQueue := rfl
@[simp] theorem memWrite_inClosed (a v : Int) (s : State) :
    (memWrite a v s).inClosed = s.inClosed := rfl
@[simp] theorem memWrite_outSeq (a v : Int) (s : State) :
    (memWrite a v s).outSeq = s.outSeq := rfl
@[simp] theorem memWrite_traceSeq (a v : Int) (s : State) :
    (memWrite a v s).traceSeq = s.traceSeq := rfl

/-! takeFault -/

@[simp] theorem takeFault_cfg (f : CoreFault) (s : State) :
    (takeFault f s).cfg = s.cfg := rfl
@[simp] theorem takeFault_mem (f : CoreFault) (s : State) :
    (takeFault f s).mem = s.mem := rfl
@[simp] theorem takeFault_memLen (f : CoreFault) (s : State) :
    (takeFault f s).memLen = s.memLen := rfl
@[simp] theorem takeFault_pc (f : CoreFault) (s : State) :
    (takeFault f s).pc = s.pc := rfl
@[simp] theorem takeFault_runState (f : CoreFault) (s : State) :
    (takeFault f s).runState = .halted := rfl
@[simp] theorem takeFault_faultCause (f : CoreFault) (s : State) :
    (takeFault f s).faultCause = causeCode f := rfl
@[simp] theorem takeFault_faultPc (f : CoreFault) (s : State) :
    (takeFault f s).faultPc = s.pc := rfl
@[simp] theorem takeFault_faultValue (f : CoreFault) (s : State) :
    (takeFault f s).faultValue = faultWord f := rfl
@[simp] theorem takeFault_faultDetail (f : CoreFault) (s : State) :
    (takeFault f s).faultDetail = detailCode f := rfl
@[simp] theorem takeFault_inQueue (f : CoreFault) (s : State) :
    (takeFault f s).inQueue = s.inQueue := rfl
@[simp] theorem takeFault_inClosed (f : CoreFault) (s : State) :
    (takeFault f s).inClosed = s.inClosed := rfl
@[simp] theorem takeFault_outSeq (f : CoreFault) (s : State) :
    (takeFault f s).outSeq = s.outSeq := rfl
@[simp] theorem takeFault_traceSeq (f : CoreFault) (s : State) :
    (takeFault f s).traceSeq = s.traceSeq := rfl

/-! emitOut -/

@[simp] theorem emitOut_cfg (v : Int) (s : State) :
    (emitOut v s).cfg = s.cfg := rfl
@[simp] theorem emitOut_mem (v : Int) (s : State) :
    (emitOut v s).mem = s.mem := rfl
@[simp] theorem emitOut_memLen (v : Int) (s : State) :
    (emitOut v s).memLen = s.memLen := rfl
@[simp] theorem emitOut_pc (v : Int) (s : State) :
    (emitOut v s).pc = s.pc := rfl
@[simp] theorem emitOut_runState (v : Int) (s : State) :
    (emitOut v s).runState = s.runState := rfl
@[simp] theorem emitOut_faultCause (v : Int) (s : State) :
    (emitOut v s).faultCause = s.faultCause := rfl
@[simp] theorem emitOut_faultPc (v : Int) (s : State) :
    (emitOut v s).faultPc = s.faultPc := rfl
@[simp] theorem emitOut_faultValue (v : Int) (s : State) :
    (emitOut v s).faultValue = s.faultValue := rfl
@[simp] theorem emitOut_faultDetail (v : Int) (s : State) :
    (emitOut v s).faultDetail = s.faultDetail := rfl
@[simp] theorem emitOut_inQueue (v : Int) (s : State) :
    (emitOut v s).inQueue = s.inQueue := rfl
@[simp] theorem emitOut_inClosed (v : Int) (s : State) :
    (emitOut v s).inClosed = s.inClosed := rfl
@[simp] theorem emitOut_outSeq (v : Int) (s : State) :
    (emitOut v s).outSeq = s.outSeq ++ [v] := rfl
@[simp] theorem emitOut_traceSeq (v : Int) (s : State) :
    (emitOut v s).traceSeq = s.traceSeq := rfl

/-! dropInput -/

@[simp] theorem dropInput_cfg (s : State) :
    (dropInput s).cfg = s.cfg := rfl
@[simp] theorem dropInput_mem (s : State) :
    (dropInput s).mem = s.mem := rfl
@[simp] theorem dropInput_memLen (s : State) :
    (dropInput s).memLen = s.memLen := rfl
@[simp] theorem dropInput_pc (s : State) :
    (dropInput s).pc = s.pc := rfl
@[simp] theorem dropInput_runState (s : State) :
    (dropInput s).runState = s.runState := rfl
@[simp] theorem dropInput_faultCause (s : State) :
    (dropInput s).faultCause = s.faultCause := rfl
@[simp] theorem dropInput_faultPc (s : State) :
    (dropInput s).faultPc = s.faultPc := rfl
@[simp] theorem dropInput_faultValue (s : State) :
    (dropInput s).faultValue = s.faultValue := rfl
@[simp] theorem dropInput_faultDetail (s : State) :
    (dropInput s).faultDetail = s.faultDetail := rfl
@[simp] theorem dropInput_inQueue (s : State) :
    (dropInput s).inQueue = s.inQueue.tail := rfl
@[simp] theorem dropInput_inClosed (s : State) :
    (dropInput s).inClosed = s.inClosed := rfl
@[simp] theorem dropInput_outSeq (s : State) :
    (dropInput s).outSeq = s.outSeq := rfl
@[simp] theorem dropInput_traceSeq (s : State) :
    (dropInput s).traceSeq = s.traceSeq := rfl

/-! emitTrace -/

@[simp] theorem emitTrace_cfg (r : TraceRecord) (s : State) :
    (emitTrace r s).cfg = s.cfg := rfl
@[simp] theorem emitTrace_mem (r : TraceRecord) (s : State) :
    (emitTrace r s).mem = s.mem := rfl
@[simp] theorem emitTrace_memLen (r : TraceRecord) (s : State) :
    (emitTrace r s).memLen = s.memLen := rfl
@[simp] theorem emitTrace_pc (r : TraceRecord) (s : State) :
    (emitTrace r s).pc = s.pc := rfl
@[simp] theorem emitTrace_runState (r : TraceRecord) (s : State) :
    (emitTrace r s).runState = s.runState := rfl
@[simp] theorem emitTrace_faultCause (r : TraceRecord) (s : State) :
    (emitTrace r s).faultCause = s.faultCause := rfl
@[simp] theorem emitTrace_faultPc (r : TraceRecord) (s : State) :
    (emitTrace r s).faultPc = s.faultPc := rfl
@[simp] theorem emitTrace_faultValue (r : TraceRecord) (s : State) :
    (emitTrace r s).faultValue = s.faultValue := rfl
@[simp] theorem emitTrace_faultDetail (r : TraceRecord) (s : State) :
    (emitTrace r s).faultDetail = s.faultDetail := rfl
@[simp] theorem emitTrace_inQueue (r : TraceRecord) (s : State) :
    (emitTrace r s).inQueue = s.inQueue := rfl
@[simp] theorem emitTrace_inClosed (r : TraceRecord) (s : State) :
    (emitTrace r s).inClosed = s.inClosed := rfl
@[simp] theorem emitTrace_outSeq (r : TraceRecord) (s : State) :
    (emitTrace r s).outSeq = s.outSeq := rfl
@[simp] theorem emitTrace_traceSeq (r : TraceRecord) (s : State) :
    (emitTrace r s).traceSeq = if s.cfg.traceEnabled then s.traceSeq ++ [r] else s.traceSeq := rfl

end Sys2Proof.Machine
end

