-- ==== Sys2Proof/Laws/Ops.lean ====
section
/-! SUPPORT. What each shared operation can do, said once: bounds-checked access, slot resolution, taking a fault,
retirement. -/

namespace Sys2Proof.Machine

/-! Access -/

/-- The bounds check is validity. -/
@[simp] theorem inRange_iff (s : State) (a : Int) : inRange s a = true ↔ Valid s a := by
  simp [inRange, Valid]

/-- A read of a valid index gives its Word. -/
theorem memRead_valid {s : State} {a : Int} (kind : AccessKind) (h : Valid s a) :
    memRead s kind a = .ok (wordAt s a) := by
  simp [memRead, h]

/-- A read of any other index is an AddressingFault. -/
theorem memRead_invalid {s : State} {a : Int} (kind : AccessKind) (h : ¬ Valid s a) :
    memRead s kind a = .error (.addressing kind a) := by
  simp [memRead, h]

/-- Taking a fault leaves the state the spec's codes describe. -/
theorem takeFault_eq (f : CoreFault) (s : State) :
    takeFault f s = faultedWith s (causeCode f) (faultWord f) (detailCode f) := rfl

/-- The codes of every fault are legal together. -/
theorem faultCodes_ok (f : CoreFault) : faultCodesOk (causeCode f) (detailCode f) = true := by
  cases f with
  | addressing kind index => cases kind <;> rfl
  | unknownOpcode w => rfl
  | badMode w => rfl
  | inputExhausted => rfl
  | arithmeticOverflow => rfl

/-- No fault has cause 0. -/
theorem causeCode_ne_zero (f : CoreFault) : causeCode f ≠ 0 := by
  cases f <;> simp [causeCode]

/-! Slots -/

/-- A read slot resolves exactly as rule R105 says. -/
theorem resolveRead_ok {s : State} {k : Nat} {m : Mode} {x : Slot} :
    resolveRead s k m = .ok x ↔ ReadsAs s k m x.param x.value := by
  obtain ⟨p, v⟩ := x
  by_cases hk : Valid s (s.pc + k)
  · cases m
    · by_cases hp : Valid s (wordAt s (s.pc + k))
      · simp only [resolveRead, readParam, memRead_valid _ hk, memRead_valid _ hp, ReadsAs, Except.ok.injEq,
          Slot.mk.injEq]
        constructor
        · rintro ⟨rfl, rfl⟩; exact ⟨hk, rfl, hp, rfl⟩
        · rintro ⟨_, rfl, _, rfl⟩; exact ⟨rfl, rfl⟩
      · simp only [resolveRead, readParam, memRead_valid _ hk, memRead_invalid _ hp, ReadsAs]
        constructor
        · intro h; cases h
        · rintro ⟨_, rfl, h, _⟩; exact absurd h hp
    · simp only [resolveRead, readParam, memRead_valid _ hk, ReadsAs, Except.ok.injEq, Slot.mk.injEq]
      constructor
      · rintro ⟨rfl, rfl⟩; exact ⟨hk, rfl, rfl⟩
      · rintro ⟨_, rfl, rfl⟩; exact ⟨rfl, rfl⟩
  · simp only [resolveRead, readParam, memRead_invalid _ hk, ReadsAs]
    constructor
    · intro h; cases h
    · rintro ⟨h, _⟩; exact absurd h hk

/-- A read slot resolves in one way at most. -/
theorem readsAs_unique {s : State} {k : Nat} {m : Mode} {p x q y : Int} (h1 : ReadsAs s k m p x)
    (h2 : ReadsAs s k m q y) : p = q ∧ x = y := by
  obtain ⟨_, rfl, h1⟩ := h1
  obtain ⟨_, rfl, h2⟩ := h2
  cases m with
  | immediate => exact ⟨rfl, h1.trans h2.symm⟩
  | positional => exact ⟨rfl, h1.2.symm.trans h2.2⟩

/-- A read slot that does not resolve raises the fault of rule R105. -/
theorem resolveRead_error {s : State} {k : Nat} {m : Mode} {f : CoreFault} (h : resolveRead s k m = .error f) :
    causeCode f = 1 ∧ SlotFaults s k .read m (faultWord f) (detailCode f) := by
  by_cases hk : Valid s (s.pc + k)
  · cases m
    · by_cases hp : Valid s (wordAt s (s.pc + k))
      · simp [resolveRead, readParam, memRead_valid _ hk, memRead_valid _ hp] at h
      · simp only [resolveRead, readParam, memRead_valid _ hk, memRead_invalid _ hp, Except.error.injEq] at h
        subst h
        exact ⟨rfl, Or.inr ⟨hk, rfl, hp, rfl, rfl⟩⟩
    · simp [resolveRead, readParam, memRead_valid _ hk] at h
  · simp only [resolveRead, readParam, memRead_invalid _ hk, Except.error.injEq] at h
    subst h
    exact ⟨rfl, Or.inl ⟨hk, rfl, rfl⟩⟩

/-- A read slot that faults by rule R105 does raise that fault. -/
theorem resolveRead_faults {s : State} {k : Nat} {m : Mode} {value : Int} {detail : BitVec 3}
    (h : SlotFaults s k .read m value detail) :
    ∃ f, resolveRead s k m = .error f ∧ causeCode f = 1 ∧ faultWord f = value ∧ detailCode f = detail := by
  rcases h with ⟨hk, rfl, rfl⟩ | ⟨hk, rfl, hp, rfl, rfl⟩
  · exact ⟨.addressing .param (s.pc + k), by simp [resolveRead, readParam, memRead_invalid _ hk], rfl, rfl, rfl⟩
  · exact ⟨.addressing .operandRead (wordAt s (s.pc + k)),
      by simp [resolveRead, readParam, memRead_valid _ hk, memRead_invalid _ hp], rfl, rfl, rfl⟩

/-- The bounds check fails exactly on an index that is not valid. -/
theorem inRange_false {s : State} {a : Int} (h : ¬ Valid s a) : inRange s a = false := by
  rw [← Bool.not_eq_true, inRange_iff]; exact h

/-- A write slot resolves to the valid index its parameter names. -/
theorem resolveWrite_ok {s : State} {k : Nat} {x : Slot} :
    resolveWrite s k = .ok x ↔ WritesTo s k x.value ∧ x.param = x.value := by
  obtain ⟨p, t⟩ := x
  by_cases hk : Valid s (s.pc + k)
  · by_cases hp : Valid s (wordAt s (s.pc + k))
    · simp only [resolveWrite, readParam, memRead_valid _ hk, (inRange_iff s _).mpr hp, if_true, WritesTo,
        Except.ok.injEq, Slot.mk.injEq]
      constructor
      · rintro ⟨rfl, rfl⟩; exact ⟨⟨hk, rfl, hp⟩, rfl⟩
      · rintro ⟨⟨_, rfl, _⟩, rfl⟩; exact ⟨rfl, rfl⟩
    · simp only [resolveWrite, readParam, memRead_valid _ hk, inRange_false hp, WritesTo]
      constructor
      · intro h; cases h
      · rintro ⟨⟨_, rfl, h⟩, _⟩; exact absurd h hp
  · simp only [resolveWrite, readParam, memRead_invalid _ hk, WritesTo]
    constructor
    · intro h; cases h
    · rintro ⟨⟨h, _⟩, _⟩; exact absurd h hk

/-- A write slot that does not resolve raises the fault of rule R105. -/
theorem resolveWrite_error {s : State} {k : Nat} {f : CoreFault} (m : Mode) (h : resolveWrite s k = .error f) :
    causeCode f = 1 ∧ SlotFaults s k .write m (faultWord f) (detailCode f) := by
  by_cases hk : Valid s (s.pc + k)
  · by_cases hp : Valid s (wordAt s (s.pc + k))
    · simp only [resolveWrite, readParam, memRead_valid _ hk, (inRange_iff s _).mpr hp, if_true] at h
      cases h
    · simp only [resolveWrite, readParam, memRead_valid _ hk, inRange_false hp, Bool.false_eq_true, if_false,
        Except.error.injEq] at h
      subst h
      exact ⟨rfl, Or.inr ⟨hk, rfl, hp, rfl⟩⟩
  · simp only [resolveWrite, readParam, memRead_invalid _ hk, Except.error.injEq] at h
    subst h
    exact ⟨rfl, Or.inl ⟨hk, rfl, rfl⟩⟩

/-- A write slot that faults by rule R105 does raise that fault. -/
theorem resolveWrite_faults {s : State} {k : Nat} {m : Mode} {value : Int} {detail : BitVec 3}
    (h : SlotFaults s k .write m value detail) :
    ∃ f, resolveWrite s k = .error f ∧ causeCode f = 1 ∧ faultWord f = value ∧ detailCode f = detail := by
  rcases h with ⟨hk, rfl, rfl⟩ | ⟨hk, rfl, hp, rfl⟩
  · exact ⟨.addressing .param (s.pc + k), by simp [resolveWrite, readParam, memRead_invalid _ hk], rfl, rfl, rfl⟩
  · exact ⟨.addressing .write (wordAt s (s.pc + k)),
      by simp [resolveWrite, readParam, memRead_valid _ hk, inRange_false hp], rfl, rfl, rfl⟩

/-! Retirement -/

/-- The state after a retirement, field by field (rule R109). -/
theorem retire_eq (e : Effect) (s : State) :
    retire e s =
      { s with
        mem := match e.write with | some (t, v) => s.mem.write t.toNat v | none => s.mem
        pc := nextPc e.op s.pc e.taken
        runState := runStateAfter e.op s.runState
        inQueue := if e.consume then s.inQueue.tail else s.inQueue
        outSeq := match e.out with | some v => s.outSeq ++ [v] | none => s.outSeq
        traceSeq := tracedBy s e.op (e.slots.map Slot.param) (e.slots.map Slot.value) } := by
  obtain ⟨op, slots, w, o, c, tk⟩ := e
  rcases w with _ | ⟨t, v⟩ <;> rcases o with _ | o <;> cases c <;> rfl

/-! Formats -/

/-- A step of format F3 resolves its three slots and then writes its result or faults on it, or faults on a slot. -/
theorem execF3_cases (op : Opcode) (a b d : Mode) (r : Int → Int → Except CoreFault Int) (s : State) :
    (∃ p x q y t, ReadsAs s 1 a p x ∧ ReadsAs s 2 b q y ∧ WritesTo s 3 t ∧
      ((∃ v, r x y = .ok v ∧
          execF3 op a b r s = .next (retire { op := op, slots := [⟨p, x⟩, ⟨q, y⟩, ⟨t, t⟩], write := some (t, v) } s)) ∨
        ∃ f, r x y = .error f ∧ execF3 op a b r s = .next (takeFault f s))) ∨
    ∃ k kind m f, causeCode f = 1 ∧ SlotFaults s k kind m (faultWord f) (detailCode f) ∧ (k = 1 ∨ k = 2 ∨ k = 3) ∧
      execF3 op a b r s = .next (takeFault f s) := by
  cases h1 : resolveRead s 1 a with
  | error f =>
    exact Or.inr ⟨1, .read, a, f, (resolveRead_error h1).1, (resolveRead_error h1).2, by simp,
      by simp [execF3, withF3, withF2, h1, commit]⟩
  | ok x =>
    cases h2 : resolveRead s 2 b with
    | error f =>
      exact Or.inr ⟨2, .read, b, f, (resolveRead_error h2).1, (resolveRead_error h2).2, by simp,
        by simp [execF3, withF3, withF2, h1, h2, commit]⟩
    | ok y =>
      cases h3 : resolveWrite s 3 with
      | error f =>
        exact Or.inr ⟨3, .write, d, f, (resolveWrite_error d h3).1, (resolveWrite_error d h3).2, by simp,
          by simp [execF3, withF3, withF2, h1, h2, h3, commit]⟩
      | ok t =>
        obtain ⟨tp, tv⟩ := t
        have ht := resolveWrite_ok.mp h3
        have hp : tp = tv := ht.2
        subst hp
        refine Or.inl ⟨x.param, x.value, y.param, y.value, tp, resolveRead_ok.mp h1, resolveRead_ok.mp h2, ht.1, ?_⟩
        cases hr : r x.value y.value with
        | error f => exact Or.inr ⟨f, rfl, by simp [execF3, withF3, withF2, h1, h2, h3, hr, commit]⟩
        | ok v => exact Or.inl ⟨v, rfl, by simp [execF3, withF3, withF2, h1, h2, h3, hr, commit]⟩

/-- Format F3 when its slots resolve. -/
theorem execF3_resolved {op : Opcode} {a b : Mode} (r : Int → Int → Except CoreFault Int) {s : State}
    {p x q y t : Int} (h1 : ReadsAs s 1 a p x) (h2 : ReadsAs s 2 b q y) (h3 : WritesTo s 3 t) :
    execF3 op a b r s =
      match r x y with
      | .ok v => .next (retire { op := op, slots := [⟨p, x⟩, ⟨q, y⟩, ⟨t, t⟩], write := some (t, v) } s)
      | .error f => .next (takeFault f s) := by
  have e1 : resolveRead s 1 a = .ok ⟨p, x⟩ := resolveRead_ok.mpr h1
  have e2 : resolveRead s 2 b = .ok ⟨q, y⟩ := resolveRead_ok.mpr h2
  have e3 : resolveWrite s 3 = .ok ⟨t, t⟩ := resolveWrite_ok.mpr ⟨h3, rfl⟩
  simp only [execF3, withF3, withF2, e1, e2, e3]
  cases r x y <;> rfl

/-- A jump resolves both slots and moves pc, or faults on a slot. -/
theorem execF2_cases (op : Opcode) (a m : Mode) (takes : Int → Bool) (s : State) :
    (∃ p x q t, ReadsAs s 1 a p x ∧ ReadsAs s 2 m q t ∧
      execF2 op a m takes s =
        .next (retire { op := op, slots := [⟨p, x⟩, ⟨q, t⟩], taken := if takes x then some t else none } s)) ∨
    ∃ k kind m' f, causeCode f = 1 ∧ SlotFaults s k kind m' (faultWord f) (detailCode f) ∧ (k = 1 ∨ k = 2) ∧
      execF2 op a m takes s = .next (takeFault f s) := by
  cases h1 : resolveRead s 1 a with
  | error f =>
    exact Or.inr ⟨1, .read, a, f, (resolveRead_error h1).1, (resolveRead_error h1).2, by simp,
      by simp [execF2, withF2, h1, commit]⟩
  | ok x =>
    cases h2 : resolveRead s 2 m with
    | error f =>
      exact Or.inr ⟨2, .read, m, f, (resolveRead_error h2).1, (resolveRead_error h2).2, by simp,
        by simp [execF2, withF2, h1, h2, commit]⟩
    | ok y =>
      exact Or.inl ⟨x.param, x.value, y.param, y.value, resolveRead_ok.mp h1, resolveRead_ok.mp h2,
        by simp [execF2, withF2, h1, h2, commit]⟩

/-- Format F2 when its slots resolve. -/
theorem execF2_resolved {op : Opcode} {a m : Mode} (takes : Int → Bool) {s : State} {p x q t : Int}
    (h1 : ReadsAs s 1 a p x) (h2 : ReadsAs s 2 m q t) :
    execF2 op a m takes s =
      .next (retire { op := op, slots := [⟨p, x⟩, ⟨q, t⟩], taken := if takes x then some t else none } s) := by
  have e1 : resolveRead s 1 a = .ok ⟨p, x⟩ := resolveRead_ok.mpr h1
  have e2 : resolveRead s 2 m = .ok ⟨q, t⟩ := resolveRead_ok.mpr h2
  simp [execF2, withF2, e1, e2, commit]

/-- READ takes an input, or faults on its slot or on exhausted input, or holds. -/
theorem execRead_cases (d : Mode) (s : State) :
    (∃ t, WritesTo s 1 t ∧
      ((∃ x rest, s.inQueue = x :: rest ∧
          execRead s = .next (retire { op := .read, slots := [⟨t, t⟩], write := some (t, x), consume := true } s)) ∨
        (s.inQueue = [] ∧ s.inClosed = true ∧ execRead s = .next (takeFault .inputExhausted s)) ∨
        (s.inQueue = [] ∧ s.inClosed = false ∧ execRead s = .next s))) ∨
    ∃ f, causeCode f = 1 ∧ SlotFaults s 1 .write d (faultWord f) (detailCode f) ∧
      execRead s = .next (takeFault f s) := by
  cases h1 : resolveWrite s 1 with
  | error f =>
    exact Or.inr ⟨f, (resolveWrite_error d h1).1, (resolveWrite_error d h1).2, by simp [execRead, withF1W, h1, commit]⟩
  | ok t =>
    obtain ⟨tp, tv⟩ := t
    have ht := resolveWrite_ok.mp h1
    have hp : tp = tv := ht.2
    subst hp
    refine Or.inl ⟨tp, ht.1, ?_⟩
    cases hq : s.inQueue with
    | cons x rest => exact Or.inl ⟨x, rest, rfl, by simp [execRead, withF1W, h1, hq, commit]⟩
    | nil =>
      cases hc : s.inClosed with
      | true => exact Or.inr (Or.inl ⟨rfl, rfl, by simp [execRead, withF1W, h1, hq, hc, commit]⟩)
      | false => exact Or.inr (Or.inr ⟨rfl, rfl, by simp [execRead, withF1W, h1, hq, hc, commit]⟩)

/-- READ when its target resolves. -/
theorem execRead_resolved {s : State} {t : Int} (h : WritesTo s 1 t) :
    execRead s =
      match s.inQueue with
      | x :: _ => .next (retire { op := .read, slots := [⟨t, t⟩], write := some (t, x), consume := true } s)
      | [] => if s.inClosed then .next (takeFault .inputExhausted s) else .next s := by
  have e1 : resolveWrite s 1 = .ok ⟨t, t⟩ := resolveWrite_ok.mpr ⟨h, rfl⟩
  simp only [execRead, withF1W, e1]
  cases s.inQueue with
  | cons x rest => rfl
  | nil => cases s.inClosed <;> rfl

/-- WRITE emits its operand, or faults on its slot. -/
theorem execWrite_cases (a : Mode) (s : State) :
    (∃ p x, ReadsAs s 1 a p x ∧
      execWrite a s = .next (retire { op := .write, slots := [⟨p, x⟩], out := some x } s)) ∨
    ∃ f, causeCode f = 1 ∧ SlotFaults s 1 .read a (faultWord f) (detailCode f) ∧
      execWrite a s = .next (takeFault f s) := by
  cases h1 : resolveRead s 1 a with
  | error f =>
    exact Or.inr ⟨f, (resolveRead_error h1).1, (resolveRead_error h1).2, by simp [execWrite, withF1R, h1, commit]⟩
  | ok x =>
    exact Or.inl ⟨x.param, x.value, resolveRead_ok.mp h1, by simp [execWrite, withF1R, h1, commit]⟩

/-- WRITE when its operand resolves. -/
theorem execWrite_resolved {a : Mode} {s : State} {p x : Int} (h : ReadsAs s 1 a p x) :
    execWrite a s = .next (retire { op := .write, slots := [⟨p, x⟩], out := some x } s) := by
  have e1 : resolveRead s 1 a = .ok ⟨p, x⟩ := resolveRead_ok.mpr h
  simp [execWrite, withF1R, e1, commit]

/-- HALT retires. -/
theorem execHalt_eq (s : State) : execHalt s = .next (retire { op := .halt, slots := [] } s) := rfl

end Sys2Proof.Machine
end

