-- ==== Sys2Proof/Laws/Exec.lean ====
section
/-! SUPPORT. What executing an instruction and taking a step can do, said once: every proof about all instructions
cites `exec_cases` or `step_cases` and unfolds no meaning. -/

namespace Sys2Proof.Machine

/-- The faults an instruction can raise once it is decoded (rule R205 points 3 and 4). -/
inductive Raises (i : Instr) (s : State) : CoreFault → Prop where
  | slot {f : CoreFault} (k : Nat) (kind : SlotKind) (m : Mode) (hk : 1 ≤ k ∧ k ≤ 3) (cause : causeCode f = 1)
      (faults : SlotFaults s k kind m (faultWord f) (detailCode f)) : Raises i s f
  | overflow (v : Int) (h : opcodeOf i = .add ∨ opcodeOf i = .mul) (hv : inWord s.cfg v = false) :
      Raises i s .arithmeticOverflow
  | exhausted (h : opcodeOf i = .read) : Raises i s .inputExhausted

/-- The effects an instruction can retire with (rules R107, R109). -/
inductive Retires (s : State) : Instr → Effect → Prop where
  | store (i : Instr) (op : Opcode) (a b : Mode) (p x q y t v : Int) (hop : opcodeOf i = op)
      (h : op = .add ∨ op = .mul ∨ op = .lt ∨ op = .cmp)
      (h1 : ReadsAs s 1 a p x) (h2 : ReadsAs s 2 b q y) (h3 : WritesTo s 3 t) (hv : inWord s.cfg v = true) :
      Retires s i { op := op, slots := [⟨p, x⟩, ⟨q, y⟩, ⟨t, t⟩], write := some (t, v) }
  | read (d : Mode) (t x : Int) (rest : List Int) (h : WritesTo s 1 t) (hq : s.inQueue = x :: rest) :
      Retires s (.read d) { op := .read, slots := [⟨t, t⟩], write := some (t, x), consume := true }
  | write (a : Mode) (p x : Int) (h : ReadsAs s 1 a p x) :
      Retires s (.write a) { op := .write, slots := [⟨p, x⟩], out := some x }
  | jump (i : Instr) (op : Opcode) (a m : Mode) (p x q t : Int) (takes : Bool) (hop : opcodeOf i = op)
      (h : op = .jnz ∨ op = .jz) (h1 : ReadsAs s 1 a p x) (h2 : ReadsAs s 2 m q t) :
      Retires s i { op := op, slots := [⟨p, x⟩, ⟨q, t⟩], taken := if takes then some t else none }
  | halt : Retires s .halt { op := .halt, slots := [] }

/-- 0 and 1 are Words at every width. -/
theorem inWord_truthWord (c : Config) (b : Bool) : inWord c (truthWord b) = true := by
  unfold inWord
  cases c.width with
  | unbounded => rfl
  | bits e =>
    have hp : 2 ≤ 2 ^ (63 + e) := Nat.le_self_pow (by omega) 2
    simp only [decide_eq_true_eq]
    generalize (2 ^ (63 + e) : Nat) = n at hp ⊢
    cases b <;> simp only [truthWord, Bool.false_eq_true, if_false, if_true] <;> omega

/-- Every integer is a Word when W = UNBOUNDED (rule R13). -/
theorem inWord_unbounded {c : Config} (h : c.width = .unbounded) (v : Int) : inWord c v = true := by
  simp [inWord, h]

/-- 0 is a Word. -/
theorem inWord_zero (c : Config) : inWord c 0 = true := inWord_truthWord c false

/-- A checked result is the exact one and a Word; else it is an overflow. -/
theorem checked_cases (c : Config) (v : Int) :
    (inWord c v = true ∧ checked c v = .ok v) ∨ (inWord c v = false ∧ checked c v = .error .arithmeticOverflow) := by
  unfold checked
  cases inWord c v <;> simp

/-- Format F3 with an arithmetic result. -/
theorem execF3_checked_cases {op : Opcode} {i : Instr} {a b d : Mode} {g : Int → Int → Int} {s : State}
    (hop : opcodeOf i = op) (h : op = .add ∨ op = .mul) :
    (∃ e, Retires s i e ∧ execF3 op a b (fun x y => checked s.cfg (g x y)) s = .next (retire e s)) ∨
      ∃ f, Raises i s f ∧ execF3 op a b (fun x y => checked s.cfg (g x y)) s = .next (takeFault f s) := by
  rcases execF3_cases op a b d (fun x y => checked s.cfg (g x y)) s with
    ⟨p, x, q, y, t, h1, h2, h3, ⟨v, hr, he⟩ | ⟨f, hr, he⟩⟩ | ⟨k, kind, m, f, hc, hs, hk, he⟩
  · rcases checked_cases s.cfg (g x y) with ⟨hv, hok⟩ | ⟨_, hno⟩
    · rw [hok] at hr
      cases hr
      exact Or.inl ⟨_, .store i op a b p x q y t _ hop (by tauto) h1 h2 h3 hv, he⟩
    · rw [hno] at hr; cases hr
  · rcases checked_cases s.cfg (g x y) with ⟨_, hok⟩ | ⟨hv, hno⟩
    · rw [hok] at hr; cases hr
    · rw [hno] at hr
      cases hr
      exact Or.inr ⟨_, .overflow (g x y) (hop ▸ h) hv, he⟩
  · exact Or.inr ⟨f, .slot k kind m (by omega) hc hs, he⟩

/-- Format F3 with a comparison. -/
theorem execF3_compare_cases {op : Opcode} {i : Instr} {a b d : Mode} {g : Int → Int → Bool} {s : State}
    (hop : opcodeOf i = op) (h : op = .lt ∨ op = .cmp) :
    (∃ e, Retires s i e ∧ execF3 op a b (fun x y => .ok (truthWord (g x y))) s = .next (retire e s)) ∨
      ∃ f, Raises i s f ∧ execF3 op a b (fun x y => .ok (truthWord (g x y))) s = .next (takeFault f s) := by
  rcases execF3_cases op a b d (fun x y => .ok (truthWord (g x y))) s with
    ⟨p, x, q, y, t, h1, h2, h3, ⟨v, hr, he⟩ | ⟨f, hr, he⟩⟩ | ⟨k, kind, m, f, hc, hs, hk, he⟩
  · cases hr
    exact Or.inl ⟨_, .store i op a b p x q y t _ hop (by tauto) h1 h2 h3 (inWord_truthWord _ _), he⟩
  · cases hr
  · exact Or.inr ⟨f, .slot k kind m (by omega) hc hs, he⟩

/-- A jump. -/
theorem execF2_jump_cases {op : Opcode} {i : Instr} {a m : Mode} {takes : Int → Bool} {s : State}
    (hop : opcodeOf i = op) (h : op = .jnz ∨ op = .jz) :
    (∃ e, Retires s i e ∧ execF2 op a m takes s = .next (retire e s)) ∨
      ∃ f, Raises i s f ∧ execF2 op a m takes s = .next (takeFault f s) := by
  rcases execF2_cases op a m takes s with ⟨p, x, q, t, h1, h2, he⟩ | ⟨k, kind, m', f, hc, hs, hk, he⟩
  · exact Or.inl ⟨_, .jump i op a m p x q t (takes x) hop h h1 h2, he⟩
  · exact Or.inr ⟨f, .slot k kind m' (by omega) hc hs, he⟩

/-- Executing an instruction retires with one of its effects, or takes one of its faults, or is a READ that holds. -/
theorem exec_cases (i : Instr) (s : State) :
    (∃ e, Retires s i e ∧ exec i s = .next (retire e s)) ∨
    (∃ f, Raises i s f ∧ exec i s = .next (takeFault f s)) ∨
    (opcodeOf i = .read ∧ (∃ t, WritesTo s 1 t) ∧ s.inQueue = [] ∧ s.inClosed = false ∧ exec i s = .next s) := by
  cases i with
  | add a b d =>
    exact (execF3_checked_cases (a := a) (b := b) (d := d) (g := (· + ·)) rfl (Or.inl rfl)).imp id Or.inl
  | mul a b d =>
    exact (execF3_checked_cases (a := a) (b := b) (d := d) (g := (· * ·)) rfl (Or.inr rfl)).imp id Or.inl
  | lt a b d =>
    exact (execF3_compare_cases (a := a) (b := b) (d := d) (g := fun x y => decide (x < y)) rfl (Or.inl rfl)).imp
      id Or.inl
  | cmp a b d =>
    exact (execF3_compare_cases (a := a) (b := b) (d := d) (g := fun x y => decide (x = y)) rfl (Or.inr rfl)).imp
      id Or.inl
  | jnz a m => exact (execF2_jump_cases (a := a) (m := m) rfl (Or.inl rfl)).imp id Or.inl
  | jz a m => exact (execF2_jump_cases (a := a) (m := m) rfl (Or.inr rfl)).imp id Or.inl
  | halt => exact Or.inl ⟨_, .halt, rfl⟩
  | write a =>
    rcases execWrite_cases a s with ⟨p, x, h, he⟩ | ⟨f, hc, hs, he⟩
    · exact Or.inl ⟨_, .write a p x h, he⟩
    · exact Or.inr (Or.inl ⟨f, .slot 1 .read a (by omega) hc hs, he⟩)
  | read d =>
    rcases execRead_cases d s with ⟨t, h, ⟨x, rest, hq, he⟩ | ⟨hq, hc, he⟩ | ⟨hq, hc, he⟩⟩ | ⟨f, hc, hs, he⟩
    · exact Or.inl ⟨_, .read d t x rest h hq, he⟩
    · exact Or.inr (Or.inl ⟨_, .exhausted rfl, he⟩)
    · exact Or.inr (Or.inr ⟨rfl, ⟨t, h⟩, hq, hc, he⟩)
    · exact Or.inr (Or.inl ⟨f, .slot 1 .write d (by omega) hc hs, he⟩)

/-- The same for a given next state. -/
theorem exec_next {i : Instr} {s t : State} (h : exec i s = .next t) :
    (∃ e, Retires s i e ∧ t = retire e s) ∨ (∃ f, Raises i s f ∧ t = takeFault f s) ∨
    (opcodeOf i = .read ∧ (∃ u, WritesTo s 1 u) ∧ s.inQueue = [] ∧ s.inClosed = false ∧ t = s) := by
  rcases exec_cases i s with ⟨e, hr, he⟩ | ⟨f, hr, he⟩ | ⟨ho, hw, hq, hc, he⟩ <;> rw [he] at h <;> cases h
  · exact Or.inl ⟨e, hr, rfl⟩
  · exact Or.inr (Or.inl ⟨f, hr, rfl⟩)
  · exact Or.inr (Or.inr ⟨ho, hw, hq, hc, rfl⟩)

/-- run_state after retirement changes for HALT alone. -/
theorem runStateAfter_of_ne {op : Opcode} (h : op ≠ .halt) (r : RunState) : runStateAfter op r = r := by
  cases op <;> first | rfl | exact absurd rfl h

/-- The three ways a RUNNING machine's fetch and decoding can go (rules R101, R102). -/
theorem fetchDecode_cases (s : State) :
    (¬ Valid s s.pc ∧ fetchDecode s = .error (.addressing .fetch s.pc)) ∨
    (Valid s s.pc ∧ decode (wordAt s s.pc) = .unknownOpcode ∧
      fetchDecode s = .error (.unknownOpcode (wordAt s s.pc))) ∨
    (Valid s s.pc ∧ decode (wordAt s s.pc) = .badMode ∧ fetchDecode s = .error (.badMode (wordAt s s.pc))) ∨
    ∃ i, Valid s s.pc ∧ decode (wordAt s s.pc) = .ok i ∧ fetchDecode s = .ok i := by
  by_cases h : Valid s s.pc
  · cases hd : decode (wordAt s s.pc) with
    | unknownOpcode => exact Or.inr (Or.inl ⟨h, rfl, by simp [fetchDecode, memRead_valid _ h, hd]⟩)
    | badMode => exact Or.inr (Or.inr (Or.inl ⟨h, rfl, by simp [fetchDecode, memRead_valid _ h, hd]⟩))
    | ok i => exact Or.inr (Or.inr (Or.inr ⟨i, h, rfl, by simp [fetchDecode, memRead_valid _ h, hd]⟩))
  · exact Or.inl ⟨h, by simp [fetchDecode, memRead_invalid _ h]⟩

/-- A step that runs an instruction is its execution. -/
theorem step_of_runsNext {s : State} {i : Instr} (h : RunsNext s i) : step s = exec i s := by
  obtain ⟨hr, hv, hd⟩ := h
  simp [step, hr, fetchDecode, memRead_valid _ hv, hd]

/-- A step of a RUNNING machine executes the decoded instruction, or takes the fault of its fetch or its decoding. -/
theorem step_running_cases {s : State} (hr : s.runState = .running) :
    (∃ i, RunsNext s i ∧ step s = exec i s) ∨
    ∃ f, ((f = .addressing .fetch s.pc ∧ ¬ Valid s s.pc) ∨
        (Valid s s.pc ∧ (f = .unknownOpcode (wordAt s s.pc) ∨ f = .badMode (wordAt s s.pc)))) ∧
      step s = .next (takeFault f s) := by
  rcases fetchDecode_cases s with ⟨h, hf⟩ | ⟨h, _, hf⟩ | ⟨h, _, hf⟩ | ⟨i, h, hd, hf⟩
  · exact Or.inr ⟨_, Or.inl ⟨rfl, h⟩, by simp [step, hr, hf]⟩
  · exact Or.inr ⟨_, Or.inr ⟨h, Or.inl rfl⟩, by simp [step, hr, hf]⟩
  · exact Or.inr ⟨_, Or.inr ⟨h, Or.inr rfl⟩, by simp [step, hr, hf]⟩
  · exact Or.inl ⟨i, ⟨hr, h, hd⟩, by simp [step, hr, hf]⟩

/-- A step that answers a next state was taken RUNNING. -/
theorem running_of_step {s t : State} (h : step s = .next t) : s.runState = .running := by
  unfold step at h
  cases hr : s.runState <;> simp [hr] at h ⊢

/-- Everything a step that answers a next state can do. -/
theorem step_cases {s t : State} (h : step s = .next t) :
    (∃ i e, RunsNext s i ∧ Retires s i e ∧ t = retire e s) ∨
    (∃ f, t = takeFault f s ∧ ((∃ i, RunsNext s i ∧ Raises i s f) ∨ (f = .addressing .fetch s.pc ∧ ¬ Valid s s.pc) ∨
      (Valid s s.pc ∧ (f = .unknownOpcode (wordAt s s.pc) ∨ f = .badMode (wordAt s s.pc))))) ∨
    (∃ i, RunsNext s i ∧ opcodeOf i = .read ∧ (∃ u, WritesTo s 1 u) ∧ s.inQueue = [] ∧ s.inClosed = false ∧
      t = s) := by
  rcases step_running_cases (running_of_step h) with ⟨i, hi, he⟩ | ⟨f, hf, he⟩
  · rcases exec_cases i s with ⟨e, hret, hx⟩ | ⟨f, hf, hx⟩ | ⟨ho, hw, hq, hc, hx⟩
    · rw [he, hx] at h; cases h
      exact Or.inl ⟨i, e, hi, hret, rfl⟩
    · rw [he, hx] at h; cases h
      exact Or.inr (Or.inl ⟨f, rfl, Or.inl ⟨i, hi, hf⟩⟩)
    · rw [he, hx] at h; cases h
      exact Or.inr (Or.inr ⟨i, hi, ho, hw, hq, hc, rfl⟩)
  · rw [he] at h; cases h
    exact Or.inr (Or.inl ⟨f, rfl, Or.inr hf⟩)

end Sys2Proof.Machine
end

