-- ==== Sys2Proof/Laws/Invariant.lean ====
section
/-! SUPPORT. The invariant `StateOk`, operation by operation: what an access yields is a Word, and taking a fault and
retiring keep it. -/

namespace Sys2Proof.Machine

/-- The Words are an interval. -/
theorem inWord_mono {c : Config} {a b n : Int} (ha : inWord c a = true) (hb : inWord c b = true) (h1 : a ≤ n)
    (h2 : n ≤ b) : inWord c n = true := by
  unfold inWord at *
  cases hw : c.width with
  | unbounded => rfl
  | bits e => simp only [hw, decide_eq_true_eq] at *; omega

/-- Every index of memory holds a Word. -/
theorem wordAt_ok {s : State} (h : StateOk s) (a : Int) : inWord s.cfg (wordAt s a) = true := by
  rcases Memory.read_mem s.mem a.toNat with hr | hr
  · unfold wordAt; rw [hr]; exact inWord_zero _
  · exact h.memWords _ hr

/-- The parameter and the operand of a read slot are Words. -/
theorem readsAs_ok {s : State} {k : Nat} {m : Mode} {p v : Int} (h : StateOk s) (hr : ReadsAs s k m p v) :
    inWord s.cfg p = true ∧ inWord s.cfg v = true := by
  obtain ⟨_, rfl, h2⟩ := hr
  refine ⟨wordAt_ok h _, ?_⟩
  cases m
  · rw [← h2.2]; exact wordAt_ok h _
  · rw [h2]; exact wordAt_ok h _

/-- The target of a write slot is a Word. -/
theorem writesTo_ok {s : State} {k : Nat} {t : Int} (h : StateOk s) (hr : WritesTo s k t) :
    inWord s.cfg t = true := by
  rw [← hr.2.1]; exact wordAt_ok h _

/-- Taking a fault whose recorded value is a Word keeps the invariant. -/
theorem takeFault_ok {s : State} {f : CoreFault} (h : StateOk s) (hv : inWord s.cfg (faultWord f) = true) :
    StateOk (takeFault f s) where
  config := h.config
  memForm := h.memForm
  memValid := h.memValid
  memWords := h.memWords
  memBound := h.memBound
  pcWord := h.pcWord
  faultPcWord := h.pcWord
  faultValueWord := hv
  faultCodes := faultCodes_ok f
  faultHalted := fun _ => rfl
  faultAtPc := fun _ => rfl
  noFault := fun h0 => absurd h0 (causeCode_ne_zero f)
  inputWords := h.inputWords
  outputWords := h.outputWords
  traceWords := h.traceWords

/-- Retiring an effect made of Words, with a valid target, keeps the invariant. -/
theorem retire_ok {s : State} {e : Effect} (h : StateOk s) (hr : s.runState = .running)
    (hw : ∀ t v, e.write = some (t, v) → Valid s t ∧ inWord s.cfg v = true)
    (ho : ∀ v, e.out = some v → inWord s.cfg v = true)
    (hs : ∀ x ∈ e.slots, inWord s.cfg x.param = true ∧ inWord s.cfg x.value = true)
    (hp : inWord s.cfg (nextPc e.op s.pc e.taken) = true) : StateOk (retire e s) := by
  have h0 : s.faultCause = 0 := by
    by_contra hne; have := h.faultHalted hne; rw [hr] at this; cases this
  obtain ⟨op, slots, w, o, c, tk⟩ := e
  rw [retire_eq]
  constructor
  · exact h.config
  · rcases w with _ | ⟨t, v⟩
    · exact h.memForm
    · exact Memory.wf_write _ _ h.memForm
  · rcases w with _ | ⟨t, v⟩
    · exact h.memValid
    · intro e he
      have := hw t v rfl
      rcases Memory.mem_write he with rfl | he
      · have h1 := this.1.1; have h2 := this.1.2; show t.toNat < s.memLen; omega
      · exact h.memValid e he
  · rcases w with _ | ⟨t, v⟩
    · exact h.memWords
    · intro e he
      rcases Memory.mem_write he with rfl | he
      · exact (hw t v rfl).2
      · exact h.memWords e he
  · exact h.memBound
  · exact hp
  · exact h.faultPcWord
  · exact h.faultValueWord
  · exact h.faultCodes
  · exact fun hne => absurd h0 hne
  · exact fun hne => absurd h0 hne
  · exact h.noFault
  · intro v hv
    refine h.inputWords v ?_
    cases c
    · exact hv
    · exact List.mem_of_mem_tail hv
  · rcases o with _ | o
    · exact h.outputWords
    · intro v hv
      rcases List.mem_append.mp hv with hv | hv
      · exact h.outputWords v hv
      · simp at hv; subst hv; exact ho _ rfl
  · intro r hr
    simp only [tracedBy] at hr
    split at hr
    · rcases List.mem_append.mp hr with hv | hv
      · exact h.traceWords r hv
      · simp at hv; subst hv
        refine ⟨h.pcWord, ?_, ?_⟩ <;> simp <;> intro x hx
        · exact (hs x hx).1
        · exact (hs x hx).2
    · exact h.traceWords r hr

end Sys2Proof.Machine
end

