-- ==== Sys2Proof/Laws/PerInstr.lean ====
section
/-! SUPPORT. Facts about every instruction as syntax, one lemma per constructor. -/

namespace Sys2Proof.Laws.CanonicalWord

/-- The canonical word of an instruction is no negative word, selects its opcode, and has no digit above its slots
(rules R75, R80); its mode vector and its slots have one entry per parameter (rule R103). -/
def Statement (i : Instr) : Prop :=
  0 ≤ encode i ∧ encode i < 10 ^ (2 + nparams (opcodeOf i)) ∧ encode i % 100 = opcodeNumber (opcodeOf i) ∧
    (modesOf i).length = nparams (opcodeOf i) ∧ (Machine.slotsOf i).map Prod.snd = modesOf i

theorem add (a b dest : Mode) : Statement (.add a b dest) := by
  cases a <;> cases b <;> cases dest <;> exact ⟨by decide, by decide, by decide, rfl, rfl⟩

theorem mul (a b dest : Mode) : Statement (.mul a b dest) := by
  cases a <;> cases b <;> cases dest <;> exact ⟨by decide, by decide, by decide, rfl, rfl⟩

theorem read (dest : Mode) : Statement (.read dest) := by
  cases dest <;> exact ⟨by decide, by decide, by decide, rfl, rfl⟩

theorem write (a : Mode) : Statement (.write a) := by
  cases a <;> exact ⟨by decide, by decide, by decide, rfl, rfl⟩

theorem jnz (a target : Mode) : Statement (.jnz a target) := by
  cases a <;> cases target <;> exact ⟨by decide, by decide, by decide, rfl, rfl⟩

theorem jz (a target : Mode) : Statement (.jz a target) := by
  cases a <;> cases target <;> exact ⟨by decide, by decide, by decide, rfl, rfl⟩

theorem lt (a b dest : Mode) : Statement (.lt a b dest) := by
  cases a <;> cases b <;> cases dest <;> exact ⟨by decide, by decide, by decide, rfl, rfl⟩

theorem cmp (a b dest : Mode) : Statement (.cmp a b dest) := by
  cases a <;> cases b <;> cases dest <;> exact ⟨by decide, by decide, by decide, rfl, rfl⟩

theorem halt : Statement .halt := ⟨by decide, by decide, by decide, rfl, rfl⟩

end Sys2Proof.Laws.CanonicalWord
end

