-- ==== Sys2Proof/Laws/System.lean ====
section
/-! SUPPORT. Runs as lists of moves. -/

namespace Sys2Proof.Machine

/-- A run of two lists is one run after the other. -/
theorem runMoves_append (xs ys : List Move) (s : State) : runMoves (xs ++ ys) s = runMoves ys (runMoves xs s) := by
  simp [runMoves]

/-- A run begins with its first move. -/
theorem runMoves_cons (m : Move) (ms : List Move) (s : State) :
    runMoves (m :: ms) s = runMoves ms (applyMove m s) := rfl

/-- Taking one more step of the core. -/
theorem coreSteps_succ (k : Nat) (s : State) : coreSteps (k + 1) s = coreSteps k (applyMove .core s) := by
  simp [coreSteps, List.replicate_succ, runMoves_cons]

/-- A core move is the step's next state, or nothing where there is none. -/
theorem applyMove_core (s : State) :
    (∃ t, step s = .next t ∧ applyMove .core s = t) ∨ ((∀ t, step s ≠ .next t) ∧ applyMove .core s = s) := by
  unfold applyMove
  cases h : step s with
  | next t => exact Or.inl ⟨t, rfl, rfl⟩
  | fault f => exact Or.inr ⟨by simp, rfl⟩
  | refused f => exact Or.inr ⟨by simp, rfl⟩

/-- The parameters of the machine are fixed: no event changes them. -/
theorem hostMove_cfg (e : HostEvent) (s : State) : (hostMove e s).2.cfg = s.cfg := by
  cases e <;>
    simp only [hostMove, hostLoad, hostPatch, hostPeek, hostStart, hostReset, hostStatus, hostSupply, hostClose] <;>
    (repeat' split) <;> rfl

/-! Attaching -/

/-- Attaching changes the channels at most, and nothing outside IDLE. -/
theorem attach_cases (c : Collaborator) (s : State) :
    Machine.attach c s = s ∨ s.runState = .idle ∧
      ((∃ q cl, c = .source q cl ∧ (∀ v ∈ q, inWord s.cfg v = true) ∧
          Machine.attach c s = { s with inQueue := q, inClosed := cl }) ∨
        (c = .sink ∧ Machine.attach c s = { s with outSeq := [] }) ∨
        (c = .logger ∧ Machine.attach c s = { s with traceSeq := [] })) := by
  cases hr : s.runState with
  | running => exact Or.inl (by simp [Machine.attach, hr])
  | halted => exact Or.inl (by simp [Machine.attach, hr])
  | idle =>
    cases c with
    | sink => exact Or.inr ⟨rfl, Or.inr (Or.inl ⟨rfl, by simp [Machine.attach, hr]⟩)⟩
    | logger => exact Or.inr ⟨rfl, Or.inr (Or.inr ⟨rfl, by simp [Machine.attach, hr]⟩)⟩
    | source q cl =>
      cases hq : q.all (inWord s.cfg) with
      | false => exact Or.inl (by simp only [Machine.attach, hr, hq, Bool.false_eq_true, if_false])
      | true =>
        exact Or.inr ⟨rfl, Or.inl ⟨q, cl, rfl, List.all_eq_true.mp hq, by simp only [Machine.attach, hr, hq, if_true]⟩⟩

/-- Once the machine is started, attaching changes nothing. -/
theorem attach_of_ne_idle (c : Collaborator) {s : State} (h : s.runState ≠ .idle) : Machine.attach c s = s := by
  rcases attach_cases c s with h' | ⟨h', _⟩
  · exact h'
  · exact absurd h' h

/-- The parameters of the machine are fixed: attaching does not change them. -/
theorem attach_cfg (c : Collaborator) (s : State) : (Machine.attach c s).cfg = s.cfg := by
  rcases attach_cases c s with h | ⟨_, ⟨_, _, _, _, h⟩ | ⟨_, h⟩ | ⟨_, h⟩⟩ <;> rw [h]

/-! Infinite runs -/

/-- An infinite run, one move later. -/
theorem runUpTo_succ (moves : Nat → Move) (n : Nat) (s : State) :
    runUpTo moves (n + 1) s = applyMove (moves n) (runUpTo moves n s) := rfl

/-- While only one state is left alone by every move, a run stays there. -/
theorem runUpTo_stays {moves : Nat → Move} {s u : State} {n : Nat} (hn : runUpTo moves n s = u) (d : Nat)
    (h : ∀ m, n ≤ m → m < n + d → applyMove (moves m) u = u) : runUpTo moves (n + d) s = u := by
  induction d with
  | zero => exact hn
  | succ d ih =>
    rw [← Nat.add_assoc, runUpTo_succ, ih fun m h1 h2 => h m h1 (by omega)]
    exact h _ (by omega) (by omega)

end Sys2Proof.Machine
end

