-- ==== Sys2Proof/Tests/Slice0.lean ====
section
/-! SUPPORT. Tests of the model: ill-formed terms, words written out from the spec's encodings, the vectors of
95_test_vectors.md (expected values are the spec's), and for every statement with hypotheses a witness that meets
them. -/

namespace Sys2Proof.Tests

open Sys2Proof Sys2Proof.Machine

/-! Helpers -/

/-- The start state of 95_test_vectors.md: after reset, load, the input attached, and start. -/
def boot (image input : List Int) (closed : Bool) : State := runMoves (bootMoves image [] input closed) State.reset

/-- The start state with a closed, empty input. -/
def code (image : List Int) : State := boot image [] true

/-- One step later. -/
def after (s : State) : State := applyMove .core s

/-- The first `n` Words of memory. -/
def words (s : State) (n : Nat) : List Int := (List.range n).map s.mem.read

/-- pc, run_state's code, fault_cause, fault_detail, fault_pc, fault_value. -/
def report (s : State) : Int × Nat × BitVec 3 × BitVec 3 × Int × Int :=
  (s.pc, runStateCode s.runState, s.faultCause, s.faultDetail, s.faultPc, s.faultValue)

/-- A machine with room for two Words, in IDLE. -/
def small : State := State.resetWith { width := .bits 0, memCapacity := 2, traceEnabled := false }

/-- A machine with unbounded Words, running an image. -/
def unbounded (image : List Int) : State :=
  runMoves (bootMoves image [] [] true) (State.resetWith { width := .unbounded, memCapacity := 100, traceEnabled := true })

/-! Ill-formed instructions: a write slot that is not positional (rule R74) -/

theorem test_wellFormed_refuses_add : wellFormed (.add .positional .positional .immediate) = false := by decide
theorem test_wellFormed_refuses_mul : wellFormed (.mul .immediate .positional .immediate) = false := by decide
theorem test_wellFormed_refuses_read : wellFormed (.read .immediate) = false := by decide
theorem test_wellFormed_refuses_lt : wellFormed (.lt .positional .immediate .immediate) = false := by decide
theorem test_wellFormed_refuses_cmp : wellFormed (.cmp .immediate .immediate .immediate) = false := by decide
theorem test_wellFormed_accepts : wellFormed (.add .immediate .immediate .positional) = true ∧
    wellFormed (.read .positional) = true ∧ wellFormed (.write .immediate) = true ∧
    wellFormed (.jnz .immediate .immediate) = true ∧ wellFormed (.jz .positional .immediate) = true ∧
    wellFormed .halt = true := by decide

/-! Decoding: 95_test_vectors.md part 2.1 -/

theorem test_decode_add : decode 1 = .ok (.add .positional .positional .positional) ∧
    decode 11101 = .ok (.add .immediate .immediate .positional) ∧ decode 21101 = .badMode ∧
    decode 100001 = .ok (.add .positional .positional .positional) := by decide
theorem test_decode_mul : decode 1002 = .ok (.mul .positional .immediate .positional) ∧
    decode 102 = .ok (.mul .immediate .positional .positional) := by decide
theorem test_decode_read : decode 3 = .ok (.read .positional) ∧ decode 103 = .ok (.read .positional) ∧
    decode 203 = .badMode := by decide
theorem test_decode_write : decode 1104 = .ok (.write .immediate) ∧ decode 2104 = .ok (.write .immediate) ∧
    decode 4 = .ok (.write .positional) ∧ decode 204 = .badMode := by decide
theorem test_decode_jnz : decode 10005 = .ok (.jnz .positional .positional) ∧
    decode 105 = .ok (.jnz .immediate .positional) := by decide
theorem test_decode_jz : decode 1006 = .ok (.jz .positional .immediate) ∧
    decode 106 = .ok (.jz .immediate .positional) := by decide
theorem test_decode_lt : decode 7 = .ok (.lt .positional .positional .positional) ∧
    decode 1007 = .ok (.lt .positional .immediate .positional) := by decide
theorem test_decode_cmp : decode 1108 = .ok (.cmp .immediate .immediate .positional) ∧
    decode 108 = .ok (.cmp .immediate .positional .positional) := by decide
theorem test_decode_halt : decode 99 = .ok .halt ∧ decode 199 = .ok .halt ∧ decode 12399 = .ok .halt := by decide
theorem test_decode_refuses : decode 0 = .unknownOpcode ∧ decode 9 = .unknownOpcode ∧ decode 98 = .unknownOpcode ∧
    decode 100 = .unknownOpcode ∧ decode (-1) = .unknownOpcode ∧ decode (-99) = .unknownOpcode ∧
    decode (-1001) = .unknownOpcode := by decide

/-- A table word of one Word, of four Words, and a negative Word (bits 63..0 all ones). -/
theorem test_decodeTableWord : decodeTableWord 64 1002 = some (.mul .positional .immediate .positional) ∧
    decodeTableWord 128 (99 + 7 * 2 ^ 64) = some .halt ∧ decodeTableWord 64 (2 ^ 64 - 1) = none := by decide
/-- The four Words 1101, 2, 3, 0 of one instruction, placed at pc of the reset machine, run as its first step. -/
theorem test_withFetchWord : words (after (State.reset.withFetchWord 256 (1101 + 2 * 2 ^ 64 + 3 * 2 ^ 128))) 4 =
    [5, 2, 3, 0] := by decide

/-! Instructions: one step each, 95_test_vectors.md parts 1 and 2.3 to 2.7 -/

/-- S1. -/
theorem test_add_self : words (after (code [1, 0, 0, 0, 99])) 5 = [2, 0, 0, 0, 99] ∧
    (after (code [1, 0, 0, 0, 99])).pc = 4 := by decide
/-- D4: the top of the range plus one. -/
theorem test_add_overflow : report (after (code [1101, 9223372036854775807, 1, 0, 99])) = (0, 2, 4, 0, 0, 0) ∧
    words (after (code [1101, 9223372036854775807, 1, 0, 99])) 1 = [1101] := by decide
/-- S3. -/
theorem test_mul_modes : words (after (code [1002, 4, 3, 4, 33])) 5 = [1002, 4, 3, 4, 99] := by decide
/-- D11, and D13 with W = UNBOUNDED. -/
theorem test_mul_overflow : report (after (code [1102, -9223372036854775808, -1, 0, 99])) = (0, 2, 4, 0, 0, 0) ∧
    words (after (unbounded [1102, 4611686018427387904, 2, 0, 99])) 1 = [9223372036854775808] := by decide
/-- I1. -/
theorem test_read_takes_input : words (after (boot [3, 3, 99, 0] [-5] true)) 4 = [3, 3, 99, -5] ∧
    (after (boot [3, 3, 99, 0] [-5] true)).pc = 2 ∧ (after (boot [3, 3, 99, 0] [-5] true)).inQueue = [] := by decide
/-- I3 to I5: hold on an open channel, then exhausted once it is closed. -/
theorem test_read_holds_or_faults : after (boot [3, 0, 99] [] false) = boot [3, 0, 99] [] false ∧
    inputWait (boot [3, 0, 99] [] false) = true ∧ report (after (code [3, 0, 99])) = (0, 2, 3, 0, 0, 0) := by decide
/-- I7. -/
theorem test_write_immediate : (after (code [104, -1, 99])).outSeq = [-1] ∧ (after (code [104, -1, 99])).pc = 2 := by
  decide
/-- I8, and I9. -/
theorem test_write_positional : (after (code [4, 3, 99, 42])).outSeq = [42] ∧
    report (after (code [4, 9, 99])) = (0, 2, 1, 3, 0, 9) ∧ (after (code [4, 9, 99])).outSeq = [] := by decide
/-- J3, J5. -/
theorem test_jnz_taken : (after (code [105, 1, 5, 99, 99, 9])).pc = 9 ∧ (after (code [1105, -1, 7])).pc = 7 := by decide
/-- J1, J4. -/
theorem test_jnz_falls_through : (after (code [1105, 0, 7])).pc = 3 ∧ (after (code [5, 3, 5, 0, 99, 9])).pc = 3 := by
  decide
/-- J6. -/
theorem test_jz_taken : (after (code [1106, 0, 7])).pc = 7 := by decide
/-- J7. -/
theorem test_jz_falls_through : (after (code [1106, -1, 7])).pc = 3 := by decide
/-- C4. -/
theorem test_lt_signed :
    words (after (code [1107, -9223372036854775808, 9223372036854775807, 0, 99])) 1 = [1] := by decide
/-- C2, C3. -/
theorem test_lt_false : words (after (code [1107, 3, 3, 0, 99])) 1 = [0] ∧
    words (after (code [1107, 3, -5, 0, 99])) 1 = [0] := by decide
/-- C7. -/
theorem test_cmp_equal : words (after (code [8, 0, 0, 0, 99])) 1 = [1] := by decide
/-- C6. -/
theorem test_cmp_unequal : words (after (code [1108, 7, -7, 0, 99])) 1 = [0] := by decide
/-- H1: one trace record. -/
theorem test_halt : report (after (code [99])) = (0, 2, 0, 0, 0, 0) ∧
    (after (code [99])).traceSeq = [{ pc := 0, op := .halt, params := [], values := [] }] := by decide
/-- H3. -/
theorem test_negative_word_is_not_halt : report (after (code [-99])) = (0, 2, 2, 1, 0, -99) := by decide

/-! Faults and their order: 95_test_vectors.md part 2.2 -/

theorem test_A1_param : report (after (code [1, 0, 0])) = (0, 2, 1, 2, 0, 3) := by decide
theorem test_A2_write : report (after (code [1101, 1, 1, 9, 99])) = (0, 2, 1, 4, 0, 9) := by decide
theorem test_A4_negative : report (after (code [1, -1, 0, 0, 99])) = (0, 2, 1, 3, 0, -1) := by decide
theorem test_A5_runs_off_the_end : report (after (after (code [1101, 1, 1, 0]))) = (4, 2, 1, 1, 4, 4) := by decide
theorem test_A7_not_taken_still_resolves : report (after (code [5, 4, 50, 99, 0])) = (0, 2, 1, 3, 0, 50) := by decide
theorem test_A9_target_before_input : report (after (code [3, 50])) = (0, 2, 1, 4, 0, 50) := by decide
theorem test_A10_bad_mode : report (after (code [201, 0, 0, 0, 99])) = (0, 2, 2, 2, 0, 201) := by decide

/-! The host: 95_test_vectors.md part 2.7 -/

/-- H4. -/
theorem test_start_in_halted : hostMove .start (after (code [99])) = (.refused, after (code [99])) := by decide
/-- H5. -/
theorem test_patch_in_running : hostMove (.patch 0 5) (code [99]) = (.refused, code [99]) := by decide
/-- H6. -/
theorem test_patch_out_of_range : (hostMove (.patch 7 5) (hostMove (.load [1, 0, 0, 0, 99]) State.reset).2).1 =
    .addressingFault 7 := by decide
/-- H7. -/
theorem test_reset_in_halted : report (hostMove .reset (after (code [-99]))).2 = (0, 0, 0, 0, 0, 0) ∧
    (hostMove .reset (after (code [-99]))).2.memLen = 0 := by decide
/-- H8, with a capacity of two Words. -/
theorem test_load_too_long : (hostMove (.load [1, 2, 3]) small).1 = .loadError ∧
    (hostMove (.load [1, 2, 3]) small).2.memLen = 0 := by decide
/-- S9: what is loaded is read back. -/
theorem test_peek : (hostMove (.peek 4) (hostMove (.load [1, 0, 0, 0, 99]) State.reset).2).1 = .word 99 := by decide
/-- P5's pseudo-instruction: JMP is JNZ with a constant (rule R83); a label is an index. -/
theorem test_assemble_pseudo : assemble [.mov (.imm (.lit 7)) (.at (.label 0)), .label 0, .jmp (.imm (.label 0))] =
    some [1101, 7, 0, 4, 1105, 1, 4] := by decide

/-! Witnesses: for each statement with hypotheses, states and operands that meet them together, at the ends of the
ranges -/

theorem witness_IllegalWords_negative :
    (code [-1]).runState = .running ∧ Valid (code [-1]) (code [-1]).pc ∧ wordAt (code [-1]) (code [-1]).pc < 0 := by
  decide
theorem witness_IllegalWords_unknown : (code [98]).runState = .running ∧ Valid (code [98]) (code [98]).pc ∧
    ∀ op : Opcode, wordAt (code [98]) (code [98]).pc % 100 ≠ opcodeNumber op :=
  ⟨by decide, by decide, fun op => by cases op <;> decide⟩
theorem witness_IllegalWords_badMode :
    (code [21101]).runState = .running ∧ Valid (code [21101]) (code [21101]).pc ∧
    0 ≤ wordAt (code [21101]) (code [21101]).pc ∧
    wordAt (code [21101]) (code [21101]).pc % 100 = opcodeNumber .add ∧ 1 ≤ 3 ∧ 3 ≤ nparams .add ∧
    2 ≤ digit (3 + 1) (wordAt (code [21101]) (code [21101]).pc) := by decide
theorem witness_IllegalWords_digit_nine :
    (code [903]).runState = .running ∧ Valid (code [903]) (code [903]).pc ∧ 0 ≤ wordAt (code [903]) (code [903]).pc ∧
    wordAt (code [903]) (code [903]).pc % 100 = opcodeNumber .read ∧ 1 ≤ 1 ∧ 1 ≤ nparams .read ∧
    2 ≤ digit (1 + 1) (wordAt (code [903]) (code [903]).pc) := by decide

/-- Accepted, and refused for each of the three reasons: a wrong number of operands, `#n` in a write-target slot, and
a label that is not bound. -/
theorem witness_AssemblerEmitsCanonicalWords :
    asmLine [(0, 4)] (.instr .mul [.imm (.lit (-1)), .at (.lit 2), .at (.label 0)]) = some [102, -1, 2, 4] ∧
    [AsmOperand.imm (.lit (-1)), .at (.lit 2), .at (.label 0)][2]? = some (.at (.label 0)) ∧
    asmLine [] (.instr .write []) = none ∧ asmLine [] (.instr .read [.imm (.lit 5)]) = none ∧
    asmLine [(0, 4)] (.instr .write [.imm (.label 1)]) = none := by decide

theorem witness_StepRuns_out_of_range :
    (code []).runState = .running ∧ ¬ Valid (code []) (code []).pc ∧
    (after (code [1105, 1, -1])).runState = .running ∧
    ¬ Valid (after (code [1105, 1, -1])) (after (code [1105, 1, -1])).pc := by decide
theorem witness_StepRuns_decoded :
    (code [42]).runState = .running ∧ Valid (code [42]) (code [42]).pc ∧
    decode (wordAt (code [42]) (code [42]).pc) = .unknownOpcode ∧
    decode (wordAt (code [201]) (code [201]).pc) = .badMode ∧ decode (wordAt (code [99]) (code [99]).pc) = .ok .halt := by
  decide

theorem witness_StepHasANextState : State.reset.runState = .idle ∧ (code [99]).runState = .running ∧
    (after (code [99])).runState = .halted ∧ step (code [99]) = .next (after (code [99])) := ⟨rfl, rfl, rfl, rfl⟩

/-- A1: slots 1 and 2 resolve, slot 3's parameter is the first index past the end. -/
theorem witness_FirstUnresolvedSlot_param : ∃ s : State,
    (slotsOf (.add .positional .positional .positional))[2]? = some (.write, .positional) ∧
    (∀ j kind' m', j < 2 → (slotsOf (.add .positional .positional .positional))[j]? = some (kind', m') →
      SlotResolves s (j + 1) kind' m') ∧
    SlotFaults s (2 + 1) .write .positional 3 2 := by
  refine ⟨code [1, 0, 0], rfl, ?_, Or.inl ⟨by decide, by decide, by decide⟩⟩
  intro j kind' m' hj h
  rcases j with _ | _ | j
  · cases h; exact ⟨0, 1, by decide, by decide, by decide, by decide⟩
  · cases h; exact ⟨0, 1, by decide, by decide, by decide, by decide⟩
  · omega
/-- A7: slot 2 of a jump that would not be taken. -/
theorem witness_FirstUnresolvedSlot_operand : ∃ s : State,
    (slotsOf (.jnz .positional .positional))[1]? = some (.read, .positional) ∧
    (∀ j kind' m', j < 1 → (slotsOf (.jnz .positional .positional))[j]? = some (kind', m') →
      SlotResolves s (j + 1) kind' m') ∧
    SlotFaults s (1 + 1) .read .positional 50 3 := by
  refine ⟨code [5, 4, 50, 99, 0], rfl, ?_, Or.inr ⟨by decide, by decide, by decide, rfl, rfl⟩⟩
  intro j kind' m' hj h
  rcases j with _ | j
  · cases h; exact ⟨4, 0, by decide, by decide, by decide, by decide⟩
  · omega
/-- The write target of READ is the first index past the end. -/
theorem witness_FirstUnresolvedSlot_write :
    (slotsOf (.read .positional))[0]? = some (.write, .positional) ∧
    SlotFaults (code [3, 2]) (0 + 1) .write .positional 2 4 :=
  ⟨rfl, Or.inr ⟨by decide, by decide, by decide, rfl⟩⟩

theorem witness_FaultsArePrecise :
    (code [0]).faultCause = 0 ∧ step (code [0]) = .next (after (code [0])) ∧ (after (code [0])).faultCause ≠ 0 :=
  ⟨rfl, rfl, by decide⟩

/-- The target is the last index, and the sum the largest Word. -/
theorem witness_AddWritesTheSum : ∃ s : State, ReadsAs s 1 .positional 4 9223372036854775806 ∧
    ReadsAs s 2 .immediate 1 1 ∧ WritesTo s 3 4 ∧ inWord s.cfg (9223372036854775806 + 1) = true :=
  ⟨code [1001, 4, 1, 4, 9223372036854775806], ⟨by decide, by decide, by decide, by decide⟩,
    ⟨by decide, by decide, by decide⟩, ⟨by decide, by decide, by decide⟩, by decide⟩
/-- The target is index 0, and the product the smallest Word. -/
theorem witness_MulWritesTheProduct : ∃ s : State, ReadsAs s 1 .immediate (-4611686018427387904) (-4611686018427387904) ∧
    ReadsAs s 2 .positional 4 2 ∧ WritesTo s 3 0 ∧ inWord s.cfg (-4611686018427387904 * 2) = true :=
  ⟨code [102, -4611686018427387904, 4, 0, 2], ⟨by decide, by decide, by decide⟩,
    ⟨by decide, by decide, by decide, by decide⟩, ⟨by decide, by decide, by decide⟩, by decide⟩
theorem witness_LtWritesTheComparison : ∃ s : State, ReadsAs s 1 .positional 1 1 ∧ ReadsAs s 2 .immediate 1 1 ∧
    WritesTo s 3 3 :=
  ⟨code [1007, 1, 1, 3], ⟨by decide, by decide, by decide, by decide⟩, ⟨by decide, by decide, by decide⟩,
    ⟨by decide, by decide, by decide⟩⟩
theorem witness_CmpWritesTheEquality : ∃ s : State, ReadsAs s 1 .immediate 8 8 ∧ ReadsAs s 2 .positional 0 108 ∧
    WritesTo s 3 0 :=
  ⟨code [108, 8, 0, 0], ⟨by decide, by decide, by decide⟩, ⟨by decide, by decide, by decide, by decide⟩,
    ⟨by decide, by decide, by decide⟩⟩
theorem witness_ReadStoresTheNextInput :
    WritesTo (boot [3, 1] [9, 8] false) 1 1 ∧ (boot [3, 1] [9, 8] false).inQueue = 9 :: [8] :=
  ⟨⟨by decide, by decide, by decide⟩, by decide⟩
theorem witness_WriteEmitsItsOperand : ReadsAs (code [4, 1]) 1 .positional 1 1 ∧ ReadsAs (code [104, -1]) 1 .immediate (-1) (-1) :=
  ⟨⟨by decide, by decide, by decide, by decide⟩, ⟨by decide, by decide, by decide⟩⟩
theorem witness_JnzJumpsOnNonZero : ∃ s : State, ReadsAs s 1 .positional 3 0 ∧ ReadsAs s 2 .immediate (-1) (-1) :=
  ⟨code [1005, 3, -1, 0], ⟨by decide, by decide, by decide, by decide⟩, ⟨by decide, by decide, by decide⟩⟩
theorem witness_JzJumpsOnZero : ∃ s : State, ReadsAs s 1 .immediate 0 0 ∧ ReadsAs s 2 .positional 2 2 :=
  ⟨code [106, 0, 2], ⟨by decide, by decide, by decide⟩, ⟨by decide, by decide, by decide, by decide⟩⟩

/-- HALT at the last index. -/
theorem witness_HaltStopsTheMachine : (code [12399]).runState = .running ∧ Valid (code [12399]) (code [12399]).pc ∧
    0 ≤ wordAt (code [12399]) (code [12399]).pc ∧ wordAt (code [12399]) (code [12399]).pc % 100 = 99 ∧
    (code []).runState = .running ∧ ¬ Valid (code []) (code []).pc := by decide

/-- One past the largest Word, by a sum and by a product. -/
theorem witness_Overflow_results : ∃ s : State, ReadsAs s 1 .immediate 4611686018427387904 4611686018427387904 ∧
    ReadsAs s 2 .positional 4 4611686018427387904 ∧ WritesTo s 3 0 ∧
    inWord s.cfg (4611686018427387904 + 4611686018427387904) = false ∧
    inWord s.cfg (4611686018427387904 * 4611686018427387904) = false :=
  ⟨code [101, 4611686018427387904, 4, 0, 4611686018427387904], ⟨by decide, by decide, by decide⟩,
    ⟨by decide, by decide, by decide, by decide⟩, ⟨by decide, by decide, by decide⟩, by decide, by decide⟩
theorem witness_Overflow_unbounded : ∃ s t : State, s.cfg.width = .unbounded ∧
    exec (.mul .immediate .immediate .positional) s = .next t ∧ s.faultCause ≠ 4 :=
  ⟨unbounded [1102, 9223372036854775807, 2, 0], after (unbounded [1102, 9223372036854775807, 2, 0]), by decide, rfl,
    by decide⟩
theorem witness_Overflow_only : ∃ s t : State, exec (.mul .immediate .immediate .positional) s = .next t ∧
    s.faultCause ≠ 4 ∧ t.faultCause = 4 :=
  ⟨code [1102, -9223372036854775808, -1, 0], after (code [1102, -9223372036854775808, -1, 0]), rfl, by decide, by decide⟩

theorem witness_ReadHolds : ∃ s : State, RunsNext s (.read .positional) ∧ WritesTo s 1 1 ∧ s.inQueue = [] ∧
    s.inClosed = false ∧ inWord s.cfg (-9223372036854775808) = true ∧
    (∀ v, Move.host .status ≠ .host (.supply v)) ∧ Move.host .status ≠ .host .close ∧
    Move.host .status ≠ .host .reset ∧ (∀ c, Move.host .status ≠ .attach c) :=
  ⟨boot [3, 1] [] false, ⟨by decide, by decide, by decide⟩, ⟨by decide, by decide, by decide⟩, by decide, by decide,
    by decide, (fun v h => by cases h), by decide, by decide, fun c h => by cases h⟩
theorem witness_ReadRaisesInputExhausted : ∃ s t : State, WritesTo s 1 0 ∧ s.inQueue = [] ∧ s.inClosed = true ∧
    exec (.read .positional) s = .next t ∧ s.faultCause ≠ 3 ∧ t.faultCause = 3 :=
  ⟨code [3, 0], after (code [3, 0]), ⟨by decide, by decide, by decide⟩, by decide, by decide, rfl, by decide, by decide⟩
theorem witness_ReadChecksItsTarget : Valid (boot [3, 2] [7] true) ((boot [3, 2] [7] true).pc + 1) ∧
    ¬ Valid (boot [3, 2] [7] true) (wordAt (boot [3, 2] [7] true) ((boot [3, 2] [7] true).pc + 1)) ∧
    ¬ Valid (code [3, -1]) (wordAt (code [3, -1]) ((code [3, -1]).pc + 1)) := by decide
theorem witness_ReadHeldHasResolved : (boot [3, 1] [] false).runState = .running ∧ (boot [3, 1] [] false).inQueue = [] ∧
    (boot [3, 1] [] false).inClosed = false ∧
    exec (.read .positional) (boot [3, 1] [] false) = .next (boot [3, 1] [] false) := ⟨rfl, rfl, rfl, rfl⟩

/-- The two ends: a target of -1, and of mem_len. -/
theorem witness_JumpTargetFaults_jnz : ∃ s : State, RunsNext s (.jnz .immediate .immediate) ∧
    ReadsAs s 1 .immediate 1 1 ∧ ReadsAs s 2 .immediate (-1) (-1) ∧ ¬ Valid s (-1) ∧ (1 : Int) ≠ 0 :=
  ⟨code [1105, 1, -1], ⟨by decide, by decide, by decide⟩, ⟨by decide, by decide, by decide⟩,
    ⟨by decide, by decide, by decide⟩, by decide, by decide⟩
theorem witness_JumpTargetFaults_jz : ∃ s : State, RunsNext s (.jz .immediate .immediate) ∧
    ReadsAs s 1 .immediate 0 0 ∧ ReadsAs s 2 .immediate 3 3 ∧ ¬ Valid s 3 :=
  ⟨code [1106, 0, 3], ⟨by decide, by decide, by decide⟩, ⟨by decide, by decide, by decide⟩,
    ⟨by decide, by decide, by decide⟩, by decide⟩
/-- P5, and the JZ that R164 names. -/
theorem witness_SelfJump_jnz : ∃ s : State, RunsNext s (.jnz .immediate .immediate) ∧ ReadsAs s 1 .immediate 1 1 ∧
    ReadsAs s 2 .immediate 0 s.pc ∧ (1 : Int) ≠ 0 :=
  ⟨code [1105, 1, 0, 99], ⟨by decide, by decide, by decide⟩, ⟨by decide, by decide, by decide⟩,
    ⟨by decide, by decide, by decide⟩, by decide⟩
theorem witness_SelfJump_jz : ∃ s : State, RunsNext s (.jz .immediate .immediate) ∧ ReadsAs s 1 .immediate 0 0 ∧
    ReadsAs s 2 .immediate 0 s.pc :=
  ⟨code [1106, 0, 0], ⟨by decide, by decide, by decide⟩, ⟨by decide, by decide, by decide⟩,
    ⟨by decide, by decide, by decide⟩⟩

/-- S6. -/
theorem witness_AddImmediateWithPositional : ∃ s : State, s.mem.wf = true ∧ s.runState = .running ∧ Valid s s.pc ∧
    wordAt s s.pc = 101 ∧ Valid s (s.pc + 3) ∧ Valid s (wordAt s (s.pc + 2)) ∧ Valid s (wordAt s (s.pc + 3)) ∧
    inWord s.cfg (wordAt s (s.pc + 1) + wordAt s (wordAt s (s.pc + 2))) = true :=
  ⟨code [101, 5, 5, 0, 99, 7], by decide, by decide, by decide, by decide, by decide, by decide, by decide, by decide⟩

theorem witness_StoredWord_add : ∃ s : State, s.mem.wf = true ∧ s.runState = .running ∧ ReadsAs s 1 .immediate 90 90 ∧
    ReadsAs s 2 .immediate 9 9 ∧ WritesTo s 3 (s.pc + 4) ∧ inWord s.cfg (90 + 9) = true ∧
    decode (90 + 9) = .ok .halt :=
  ⟨code [1101, 90, 9, 4, 0], by decide, by decide, ⟨by decide, by decide, by decide⟩,
    ⟨by decide, by decide, by decide⟩, ⟨by decide, by decide, by decide⟩, by decide, by decide⟩
theorem witness_StoredWord_mul : ∃ s : State, s.mem.wf = true ∧ s.runState = .running ∧ ReadsAs s 1 .positional 4 33 ∧
    ReadsAs s 2 .immediate 3 3 ∧ WritesTo s 3 (s.pc + 4) ∧ inWord s.cfg (33 * 3) = true ∧
    decode (33 * 3) = .ok .halt :=
  ⟨code [1002, 4, 3, 4, 33], by decide, by decide, ⟨by decide, by decide, by decide, by decide⟩,
    ⟨by decide, by decide, by decide⟩, ⟨by decide, by decide, by decide⟩, by decide, by decide⟩
/-- A comparison that holds stores 1, which is ADD. -/
theorem witness_StoredWord_lt : ∃ s : State, s.mem.wf = true ∧ s.runState = .running ∧ ReadsAs s 1 .immediate (-1) (-1) ∧
    ReadsAs s 2 .immediate 0 0 ∧ WritesTo s 3 (s.pc + 4) ∧
    decode (if (-1 : Int) < 0 then 1 else 0) = .ok (.add .positional .positional .positional) :=
  ⟨code [1107, -1, 0, 4, 0], by decide, by decide, ⟨by decide, by decide, by decide⟩,
    ⟨by decide, by decide, by decide⟩, ⟨by decide, by decide, by decide⟩, by decide⟩
theorem witness_StoredWord_cmp : ∃ s : State, s.mem.wf = true ∧ s.runState = .running ∧ ReadsAs s 1 .positional 3 4 ∧
    ReadsAs s 2 .immediate 4 4 ∧ WritesTo s 3 (s.pc + 4) ∧
    decode (if (4 : Int) = 4 then 1 else 0) = .ok (.add .positional .positional .positional) :=
  ⟨code [1008, 3, 4, 4, 0], by decide, by decide, ⟨by decide, by decide, by decide, by decide⟩,
    ⟨by decide, by decide, by decide⟩, ⟨by decide, by decide, by decide⟩, by decide⟩
theorem witness_StoredWord_read : ∃ s : State, s.mem.wf = true ∧ s.runState = .running ∧ WritesTo s 1 (s.pc + 2) ∧
    s.inQueue = 104 :: [] ∧ decode 104 = .ok (.write .immediate) :=
  ⟨boot [3, 2, 0, 5] [104] true, by decide, by decide, ⟨by decide, by decide, by decide⟩, by decide, by decide⟩

/-- Each instruction answers a next state, by retiring (S1, S3, C7, C8). -/
theorem witness_FrameOfStoringArithmetic :
    exec (.add .positional .positional .positional) (code [1, 0, 0, 0]) = .next (after (code [1, 0, 0, 0])) ∧
    exec (.mul .positional .immediate .positional) (code [1002, 4, 3, 4, 33]) =
      .next (after (code [1002, 4, 3, 4, 33])) ∧
    exec (.lt .positional .positional .positional) (code [7, 0, 0, 0]) = .next (after (code [7, 0, 0, 0])) ∧
    exec (.cmp .positional .positional .positional) (code [8, 0, 0, 0]) = .next (after (code [8, 0, 0, 0])) ∧
    ((0 : Nat) : Int) ≠ wordAt (code [1002, 4, 3, 4, 33]) ((code [1002, 4, 3, 4, 33]).pc + 3) :=
  ⟨rfl, rfl, rfl, rfl, by decide⟩
theorem witness_FrameOfRead :
    exec (.read .positional) (boot [3, 1] [9] true) = .next (after (boot [3, 1] [9] true)) ∧
    ((0 : Nat) : Int) ≠ wordAt (boot [3, 1] [9] true) ((boot [3, 1] [9] true).pc + 1) := ⟨rfl, by decide⟩
theorem witness_FrameOfNonStoringInstructions :
    exec (.write .immediate) (code [104, 5]) = .next (after (code [104, 5])) ∧
    exec (.jnz .immediate .immediate) (code [1105, 1, 0]) = .next (after (code [1105, 1, 0])) ∧
    exec (.jz .immediate .immediate) (code [1106, 0, 3]) = .next (after (code [1106, 0, 3])) ∧
    exec .halt (code [99]) = .next (after (code [99])) := ⟨rfl, rfl, rfl, rfl⟩

/-- The invariant holds of a machine that has loaded a program and its input. -/
theorem witness_StateOk : StateOk (boot [3, 3, 99, -9223372036854775808] [9223372036854775807] true) :=
  ⟨by decide, by decide, by decide, by decide, by decide, by decide, by decide, by decide, by decide, by decide,
    by decide, by decide, by decide, by decide, fun r h => by cases h⟩
/-- The invariant holds of a machine that a fault has stopped. -/
theorem witness_StateOk_faulted : StateOk (after (code [-99])) :=
  ⟨by decide, by decide, by decide, by decide, by decide, by decide, by decide, by decide, by decide, by decide,
    by decide, by decide, by decide, by decide, fun r h => by cases h⟩
theorem witness_StepKeepsTheInvariant : ∃ s t : State, StateOk s ∧ step s = .next t :=
  ⟨boot [3, 3, 99, -9223372036854775808] [9223372036854775807] true, _, witness_StateOk, rfl⟩
theorem witness_HostEventsKeepTheInvariant : ∃ s : State, StateOk s ∧ (hostMove (.supply 1) s).1 = .refused :=
  ⟨boot [3, 3, 99, -9223372036854775808] [9223372036854775807] true, witness_StateOk, rfl⟩
/-- The largest capacity at W = 64, and one that only W = UNBOUNDED allows. -/
theorem witness_ResetMeetsTheInvariant :
    configOk { width := .bits 0, memCapacity := 2 ^ 63 - 5, traceEnabled := false } = true ∧
    configOk { width := .bits 0, memCapacity := 2 ^ 63 - 4, traceEnabled := false } = false ∧
    configOk { width := .unbounded, memCapacity := 2 ^ 63 - 4, traceEnabled := true } = true := by decide

/-- Two machines with the same core state and different outputs and traces. -/
theorem witness_StepIsDetermined : ∃ s s' t : State, SameCore s s' ∧ s ≠ s' ∧ step s = .next t :=
  ⟨code [104, 5], { code [104, 5] with outSeq := [1], faultValue := 3 }, after (code [104, 5]),
    ⟨rfl, rfl, rfl, rfl, rfl, rfl, rfl⟩, by decide, rfl⟩

theorem witness_OnlyResetLeavesHalted : (after (code [99])).runState = .halted ∧ Move.core ≠ .host .reset ∧
    Move.host (.load [1]) ≠ .host .reset ∧ (∀ c, Move.host (.load [1]) ≠ .attach c) :=
  ⟨by decide, by decide, by decide, fun c h => by cases h⟩
theorem witness_OnlyLoadAndResetWriteMemLen : Move.core ≠ .host .reset ∧ (∀ seq, Move.core ≠ .host (.load seq)) ∧
    small.memLen ≤ small.cfg.memCapacity ∧ (applyMove (.host (.load [1, 2])) small).memLen = small.cfg.memCapacity :=
  ⟨by decide, (fun seq h => by cases h), by decide, by decide⟩
/-- A step that faults, a step that does not, and an event. -/
theorem witness_FaultRegistersHaveNoOtherWriter : Move.core ≠ .host .start ∧ Move.core ≠ .host .reset ∧
    Move.host .close ≠ .host .start ∧ Move.host .close ≠ .host .reset ∧ (after (code [0])).faultCause = 2 ∧
    (after (code [99])).faultCause = 0 := by decide

theorem witness_InputIsConsumedInOrder : ∃ s : State, s.mem.wf = true ∧ RunsNext s (.read .positional) ∧
    WritesTo s 1 0 ∧ s.inQueue = 4 :: [5] ∧ (applyMove .core s).inQueue = [5] ∧ (∀ c, Move.core ≠ .attach c) :=
  ⟨boot [103, 0] [4, 5] false, by decide, ⟨by decide, by decide, by decide⟩, ⟨by decide, by decide, by decide⟩,
    by decide, by decide, fun c h => by cases h⟩
theorem witness_OutputIsAppended : (∀ c, Move.core ≠ .attach c) ∧ (applyMove .core (code [104, 5])).outSeq = [5] :=
  ⟨(fun c h => by cases h), by decide⟩
/-- Steps that retire: an ADD at the top of the range, a READ, a HALT. -/
theorem witness_TraceRecords_retired : Completes (code [1101, 9223372036854775806, 1, 0]) (.add .immediate .immediate .positional) ∧
    Completes (boot [3, 1] [4] true) (.read .positional) ∧ Completes (code [99]) .halt := by
  refine ⟨⟨⟨by decide, by decide, by decide⟩, ?_, ?_⟩, ⟨⟨by decide, by decide, by decide⟩, ?_, by decide⟩,
    ⟨⟨by decide, by decide, by decide⟩, fun k kind m h => by simp [slotsOf] at h, trivial⟩⟩
  · intro k kind m h
    rcases k with _ | _ | _ | k
    · cases h; exact ⟨9223372036854775806, 9223372036854775806, by decide, by decide, by decide⟩
    · cases h; exact ⟨1, 1, by decide, by decide, by decide⟩
    · cases h; exact ⟨0, by decide, by decide, by decide⟩
    · simp [slotsOf] at h
  · rintro p x q y ⟨_, rfl, rfl⟩ ⟨_, rfl, rfl⟩; decide
  · intro k kind m h
    rcases k with _ | k
    · cases h; exact ⟨1, by decide, by decide, by decide⟩
    · simp [slotsOf] at h
/-- A step that captures a fault although its slots resolve, a READ that holds, and a fault of the fetch, at which no
instruction completes. -/
theorem witness_TraceRecords_others :
    (code [1101, 9223372036854775807, 1, 0]).faultCause = 0 ∧
    step (code [1101, 9223372036854775807, 1, 0]) = .next (after (code [1101, 9223372036854775807, 1, 0])) ∧
    (after (code [1101, 9223372036854775807, 1, 0])).faultCause ≠ 0 ∧
    inputWait (boot [3, 1] [] false) = true ∧ step (boot [3, 1] [] false) = .next (boot [3, 1] [] false) ∧
    step (code []) = .next (after (code [])) ∧ ∀ i, ¬ Completes (code []) i :=
  ⟨rfl, rfl, by decide, rfl, rfl, rfl, fun _ h => absurd h.1.2.1 (by decide)⟩

theorem witness_SequentialAdvanceIsAWord : ∃ s : State, StateOk s ∧ Valid s s.pc ∧ 1 ≤ 4 ∧ 4 ≤ 4 :=
  ⟨boot [3, 3, 99, -9223372036854775808] [9223372036854775807] true, witness_StateOk, by decide, by decide, by decide⟩

/-- A load that fills the capacity exactly, one Word more, an integer that is no Word, and a machine not in IDLE. -/
theorem witness_LoadFillsMemory : small.runState = .idle ∧ [1, 2].length ≤ small.cfg.memCapacity ∧
    (∀ v ∈ [(1 : Int), -2], inWord small.cfg v = true) ∧ small.cfg.memCapacity < [1, 2, 3].length ∧
    (∃ v ∈ [(9223372036854775808 : Int)], inWord small.cfg v = false) ∧ (code [1]).runState ≠ .idle := by decide

/-- The last valid index, the first past it, -1, and the states in which each event is allowed or refused. -/
theorem witness_PatchAndPeek : ∃ s : State, s.runState = .idle ∧ s.runState ≠ .running ∧ Valid s 1 ∧ ¬ Valid s 2 ∧
    ¬ Valid s (-1) ∧ inWord s.cfg 9223372036854775807 = true :=
  ⟨(hostMove (.load [1, 2]) small).2, by decide, by decide, by decide, by decide, by decide, by decide⟩
theorem witness_PatchAndPeek_running : (code [1]).runState = .running ∧ (code [1]).runState ≠ .idle ∧
    inWord (code [1]).cfg (-9223372036854775808) = true := by decide

theorem witness_StartEntersAtIndexZero : State.reset.runState = .idle ∧ (code [1]).runState ≠ .idle ∧
    (after (code [99])).runState ≠ .idle := by decide

theorem witness_EmptyMachine : State.reset.runState = .idle ∧ State.reset.memLen = 0 ∧
    small.cfg.memCapacity < [1, 2, 3].length ∧ (∃ v ∈ [(-9223372036854775809 : Int)], inWord small.cfg v = false) := by
  decide
theorem witness_InputWaitShowsAHeldRead : inputWait (boot [3, 1] [] false) = true ∧
    inputWait (code [3, 1]) = false ∧ inputWait (boot [3, 2] [] false) = false := by decide

theorem witness_SupplyAndClose : State.reset.inClosed = false ∧ inWord State.reset.cfg (-9223372036854775808) = true ∧
    (code [1]).inClosed = true ∧ inWord State.reset.cfg 9223372036854775808 = false := by decide

theorem witness_RefusedEvents : (hostMove (.load [1]) (code [1])).1 = .refused ∧
    (hostMove (.peek 0) State.reset).1 = .addressingFault 0 ∧ HostEvent.close ≠ .start ∧ HostEvent.close ≠ .reset := by
  decide

theorem witness_PeekReturns : (hostMove (.load [4, 0]) small).1 = .ok ∧ [(4 : Int), 0][1]? = some 0 := by decide

/-- Patches of the first and of the last index. -/
theorem witness_BootRunsTheImage : [(104 : Int), 5].length ≤ small.cfg.memCapacity ∧
    (∀ v ∈ [(104 : Int), 5], inWord small.cfg v = true) ∧
    (∀ p ∈ [((1 : Int), (9 : Int)), (0, 99)],
      0 ≤ p.1 ∧ p.1 < ([(104 : Int), 5].length : Int) ∧ inWord small.cfg p.2 = true) ∧
    (∀ v ∈ [(-1 : Int)], inWord small.cfg v = true) := by decide

/-- The three codes of run_state. -/
theorem witness_StatusReadShowsTheFields : State.reset.runState = .idle ∧ (code [99]).runState = .running ∧
    (after (code [99])).runState = .halted := by decide

/-- In IDLE with a closed source, with a queue of Words at both ends of the range and with an integer that is no Word;
and a machine not in IDLE. -/
theorem witness_AttachReplaces : (hostMove .close State.reset).2.runState = .idle ∧
    (∀ v ∈ [(9223372036854775807 : Int), -9223372036854775808], inWord State.reset.cfg v = true) ∧
    (∃ v ∈ [(9223372036854775808 : Int)], inWord State.reset.cfg v = false) ∧ (code [1]).runState ≠ .idle := by decide
/-- A machine that has closed its input and halted takes fresh input in its next run. -/
theorem test_fresh_source : (runMoves (bootMoves [3, 0] [] [7] true) (after (code [99]))).inQueue = [7] ∧
    (runMoves (bootMoves [3, 0] [] [7] true) (after (code [104, 5]))).outSeq = [] := by decide

/-- A run of core moves alone is fair, and reaches the HALT. -/
theorem witness_FairRunsReachTheEnd : WeaklyFair (fun _ => .core) (code [1101, 1, 1, 0, 99]) ∧
    (∀ n, leavesRunAlone ((fun _ => Move.core : Nat → Move) n) = true) ∧
    ended (coreSteps 2 (code [1101, 1, 1, 0, 99])) = true :=
  ⟨fun n _ => ⟨n, Nat.le_refl n, rfl⟩, fun _ => rfl, by decide⟩

/-- Not ended, and ended by the next move: by HALT, and by a fault. -/
theorem witness_RunEnds : ended (code [99]) = false ∧ ended (after (code [99])) = true ∧ ended (code [0]) = false ∧
    ended (after (code [0])) = true := by decide

end Sys2Proof.Tests
end

/-! The events of the host that touch memory or its length, and the status read (10_state.md, part 7). -/

namespace Sys2Proof.Machine

/-! What load answers (rule R41) -/

/-- A sequence of Words that fits is stored from index 0 on. -/
theorem hostMove_load_words {seq : List Int} {s : State} (hi : s.runState = .idle)
    (hlen : seq.length ≤ s.cfg.memCapacity) (hw : ∀ v ∈ seq, inWord s.cfg v = true) :
    hostMove (.load seq) s = (.ok, { s with mem := Memory.ofListFrom 0 seq, memLen := seq.length }) := by
  have hfits : seq.length ≤ s.cfg.memCapacity ∧ seq.all (inWord s.cfg) = true := ⟨hlen, List.all_eq_true.mpr hw⟩
  simp only [hostMove, hostLoad, hi, if_pos hfits]

/-- A sequence that is too long, or holds an integer that is no Word, is a LoadError. -/
theorem hostMove_load_error {seq : List Int} {s : State} (hi : s.runState = .idle)
    (hbad : s.cfg.memCapacity < seq.length ∨ ∃ v ∈ seq, inWord s.cfg v = false) :
    hostMove (.load seq) s = (.loadError, { s with mem := [], memLen := 0 }) := by
  have hfails : ¬(seq.length ≤ s.cfg.memCapacity ∧ seq.all (inWord s.cfg) = true) := by
    rintro ⟨hlen, hall⟩
    rcases hbad with hlong | ⟨v, hv, hno⟩
    · omega
    · exact Bool.false_ne_true (hno.symm.trans (List.all_eq_true.mp hall v hv))
  simp only [hostMove, hostLoad, hi, if_neg hfails]

/-- Outside IDLE a load is refused. -/
theorem hostMove_load_refused (seq : List Int) {s : State} (h : s.runState ≠ .idle) :
    hostMove (.load seq) s = (.refused, s) := by
  cases hr : s.runState with
  | idle => exact absurd hr h
  | running => simp only [hostMove, hostLoad, hr]
  | halted => simp only [hostMove, hostLoad, hr]

/-- The three answers of a load: it stores the sequence, or fails, or is refused. -/
theorem hostMove_load_cases (seq : List Int) (s : State) :
    (s.runState = .idle ∧ seq.length ≤ s.cfg.memCapacity ∧ (∀ v ∈ seq, inWord s.cfg v = true) ∧
      hostMove (.load seq) s = (.ok, { s with mem := Memory.ofListFrom 0 seq, memLen := seq.length })) ∨
    (s.runState = .idle ∧ hostMove (.load seq) s = (.loadError, { s with mem := [], memLen := 0 })) ∨
    (s.runState ≠ .idle ∧ hostMove (.load seq) s = (.refused, s)) := by
  by_cases hi : s.runState = .idle
  · by_cases hbad : s.cfg.memCapacity < seq.length ∨ ∃ v ∈ seq, inWord s.cfg v = false
    · exact Or.inr (Or.inl ⟨hi, hostMove_load_error hi hbad⟩)
    · have hlen : seq.length ≤ s.cfg.memCapacity := Nat.le_of_not_lt fun hlong => hbad (Or.inl hlong)
      have hw : ∀ v ∈ seq, inWord s.cfg v = true := fun v hv => by
        by_contra hno
        exact hbad (Or.inr ⟨v, hv, Bool.eq_false_of_not_eq_true hno⟩)
      exact Or.inl ⟨hi, hlen, hw, hostMove_load_words hi hlen hw⟩
  · exact Or.inr (Or.inr ⟨hi, hostMove_load_refused seq hi⟩)

/-- The memory of a sequence holds each element at its position. -/
theorem Memory.read_ofListFrom_zero {seq : List Int} {i : Nat} {v : Int} (h : seq[i]? = some v) :
    (Memory.ofListFrom 0 seq).read i = v := by
  have hread := Memory.read_ofListFrom 0 seq i
  rw [Nat.zero_add] at hread
  rw [hread, List.getD_eq_getElem?_getD, h, Option.getD_some]

/-! What patch and peek answer (rules R42, R43) -/

/-- A patch of a Word in IDLE writes a valid index and reports any other. -/
theorem hostMove_patch_idle {s : State} {v : Int} (a : Int) (hi : s.runState = .idle) (hv : inWord s.cfg v = true) :
    hostMove (.patch a v) s = if Valid s a then (.ok, memWrite a v s) else (.addressingFault a, s) := by
  simp only [hostMove, hostPatch, hi, hv, if_true, inRange_iff]

/-- Outside IDLE a patch is refused. -/
theorem hostMove_patch_refused (a v : Int) {s : State} (h : s.runState ≠ .idle) :
    hostMove (.patch a v) s = (.refused, s) := by
  cases hr : s.runState with
  | idle => exact absurd hr h
  | running => simp only [hostMove, hostPatch, hr]
  | halted => simp only [hostMove, hostPatch, hr]

/-- A peek outside RUNNING reads a valid index and reports any other. -/
theorem hostMove_peek {s : State} (a : Int) (h : s.runState ≠ .running) :
    hostMove (.peek a) s = (if Valid s a then .word (wordAt s a) else .addressingFault a, s) := by
  cases hr : s.runState with
  | running => exact absurd hr h
  | idle => simp only [hostMove, hostPeek, hr, inRange_iff]
  | halted => simp only [hostMove, hostPeek, hr, inRange_iff]

/-- A peek in RUNNING is refused. -/
theorem hostMove_peek_refused {s : State} (a : Int) (h : s.runState = .running) :
    hostMove (.peek a) s = (.refused, s) := by
  simp only [hostMove, hostPeek, h]

/-! What the moves do to mem_len and to the parameters (rule R24) -/

/-- Retirement leaves mem_len. -/
@[simp] theorem retire_memLen (e : Effect) (s : State) : (retire e s).memLen = s.memLen := by rw [retire_eq]

/-- Retirement leaves the parameters. -/
@[simp] theorem retire_cfg (e : Effect) (s : State) : (retire e s).cfg = s.cfg := by rw [retire_eq]

/-- A step of the core writes neither mem_len nor the parameters. -/
theorem step_memLen_cfg {s t : State} (h : step s = .next t) : t.memLen = s.memLen ∧ t.cfg = s.cfg := by
  rcases step_cases h with ⟨_, e, _, _, rfl⟩ | ⟨f, rfl, _⟩ | ⟨_, _, _, _, _, _, rfl⟩
  · exact ⟨retire_memLen e s, retire_cfg e s⟩
  · exact ⟨takeFault_memLen f s, takeFault_cfg f s⟩
  · exact ⟨rfl, rfl⟩

/-- A core move writes neither mem_len nor the parameters. -/
theorem applyMove_core_memLen_cfg (s : State) :
    (applyMove .core s).memLen = s.memLen ∧ (applyMove .core s).cfg = s.cfg := by
  rcases applyMove_core s with ⟨t, hstep, ht⟩ | ⟨_, hs⟩
  · rw [ht]; exact step_memLen_cfg hstep
  · rw [hs]; exact ⟨rfl, rfl⟩

/-- Attaching leaves mem_len. -/
theorem attach_memLen (c : Collaborator) (s : State) : (Machine.attach c s).memLen = s.memLen := by
  rcases attach_cases c s with h | ⟨_, ⟨_, _, _, _, h⟩ | ⟨_, h⟩ | ⟨_, h⟩⟩ <;> rw [h]

/-- The parameters of the machine are fixed: no move changes them. -/
theorem applyMove_cfg (m : Move) (s : State) : (applyMove m s).cfg = s.cfg := by
  cases m with
  | core => exact (applyMove_core_memLen_cfg s).2
  | host e => exact hostMove_cfg e s
  | attach c => exact attach_cfg c s

/-- A patch leaves mem_len, whatever it answers. -/
theorem hostMove_patch_memLen (a v : Int) (s : State) : (hostMove (.patch a v) s).2.memLen = s.memLen := by
  simp only [hostMove, hostPatch]
  (repeat' split) <;> rfl

/-- A peek leaves the whole state, whatever it answers. -/
theorem hostMove_peek_state (a : Int) (s : State) : (hostMove (.peek a) s).2 = s := by
  by_cases hr : s.runState = .running
  · rw [hostMove_peek_refused a hr]
  · rw [hostMove_peek a hr]

/-- Of the events, load and reset alone write mem_len. -/
theorem hostMove_memLen {e : HostEvent} (s : State) (hreset : e ≠ .reset) (hload : ∀ seq, e ≠ .load seq) :
    (hostMove e s).2.memLen = s.memLen := by
  cases e with
  | load seq => exact absurd rfl (hload seq)
  | reset => exact absurd rfl hreset
  | patch a v => exact hostMove_patch_memLen a v s
  | peek a => rw [hostMove_peek_state]
  | start => simp only [hostMove, hostStart]; split <;> rfl
  | status => rfl
  | supply v => simp only [hostMove, hostSupply]; split <;> rfl
  | close => rfl

/-- Of the moves, load and reset alone write mem_len. -/
theorem applyMove_memLen {m : Move} (s : State) (hreset : m ≠ .host .reset) (hload : ∀ seq, m ≠ .host (.load seq)) :
    (applyMove m s).memLen = s.memLen := by
  cases m with
  | core => exact (applyMove_core_memLen_cfg s).1
  | attach c => exact attach_memLen c s
  | host e => exact hostMove_memLen s (fun h => hreset (h ▸ rfl)) (fun seq h => hload seq (h ▸ rfl))

/-- Reset sets mem_len to 0. -/
theorem applyMove_reset_memLen (s : State) : (applyMove (.host .reset) s).memLen = 0 := rfl

/-- A load never takes mem_len above MEM_CAPACITY. -/
theorem applyMove_load_memLen_le (seq : List Int) {s : State} (h : s.memLen ≤ s.cfg.memCapacity) :
    (applyMove (.host (.load seq)) s).memLen ≤ s.cfg.memCapacity := by
  show (hostMove (.load seq) s).2.memLen ≤ s.cfg.memCapacity
  rcases hostMove_load_cases seq s with ⟨_, hlen, _, heq⟩ | ⟨_, heq⟩ | ⟨_, heq⟩ <;> rw [heq]
  · exact hlen
  · exact Nat.zero_le _
  · exact h

/-- Every move keeps mem_len within MEM_CAPACITY. -/
theorem applyMove_memLen_le (m : Move) {s : State} (h : s.memLen ≤ s.cfg.memCapacity) :
    (applyMove m s).memLen ≤ (applyMove m s).cfg.memCapacity := by
  rw [applyMove_cfg]
  by_cases hreset : m = .host .reset
  · rw [hreset, applyMove_reset_memLen]; exact Nat.zero_le _
  · by_cases hload : ∃ seq, m = .host (.load seq)
    · obtain ⟨seq, rfl⟩ := hload
      exact applyMove_load_memLen_le seq h
    · rw [applyMove_memLen s hreset fun seq hm => hload ⟨seq, hm⟩]
      exact h

/-! The statements -/

/-- Settles O35: the frame of mem_len move by move, and the bound that load checks. -/
theorem onlyLoadAndResetWriteMemLen : Obligations.OnlyLoadAndResetWriteMemLen :=
  ⟨fun _ s hreset hload => applyMove_memLen s hreset hload, applyMove_reset_memLen, rfl,
    fun m _ h => applyMove_memLen_le m h⟩

/-- Settles O41, from the three answers of a load; after a failed one the unspecified contents are the model's. -/
theorem loadFillsMemoryOrReportsLoadError : Obligations.LoadFillsMemoryOrReportsLoadError := by
  intro s seq
  refine ⟨fun hi hlen hw => ?_, fun hi hbad => ?_, hostMove_load_refused seq⟩
  · exact ⟨Memory.ofListFrom 0 seq, hostMove_load_words hi hlen hw, fun i v => Memory.read_ofListFrom_zero⟩
  · exact ⟨[], hostMove_load_error hi hbad⟩

/-- Settles O42, from what patch and peek answer where they are allowed and where they are refused. -/
theorem patchAndPeekAreBoundsChecked : Obligations.PatchAndPeekAreBoundsChecked := by
  intro s a v hv
  refine ⟨fun hi ha => ?_, fun hi ha => ?_, hostMove_patch_refused a v, fun hr ha => ?_, fun hr ha => ?_,
    hostMove_peek_refused a⟩
  · rw [hostMove_patch_idle a hi hv, if_pos ha, memWrite]
  · rw [hostMove_patch_idle a hi hv, if_neg ha]
  · rw [hostMove_peek a hr, if_pos ha]
  · rw [hostMove_peek a hr, if_neg ha]

/-- Settles O52: the status read answers `statusOf`, whose first field is the code of run_state (rule R27). -/
theorem statusReadShowsTheFields : Obligations.StatusReadShowsTheFields := by
  intro s
  have hcode : ∀ r, s.runState = r → (statusOf s).runState = runStateCode r := fun _ h => h ▸ rfl
  exact ⟨statusOf s, rfl, hcode .idle, hcode .running, hcode .halted, rfl, rfl, rfl, rfl, rfl, rfl, rfl⟩

end Sys2Proof.Machine

/-! The words the decoder refuses and the fault each raises when fetched (30_encoding.md rules R72, R73, R79; rule R201). -/

namespace Sys2Proof

/-- A negative word and a word whose opcode is outside the map are unknown (rules R72, R79). -/
theorem decode_eq_unknownOpcode {w : Int} (h : w < 0 ∨ ∀ op, w % 100 ≠ opcodeNumber op) :
    decode w = .unknownOpcode := by
  by_cases hneg : w < 0
  · simp only [decode, if_pos hneg]
  · have hnone : opcodeOfNumber (w % 100) = none := opcodeOfNumber_none.mpr (h.resolve_left hneg)
    simp only [decode, if_neg hneg, hnone]

/-- One used slot without a mode leaves the word without an instruction (rule R73). -/
theorem instrOf_eq_none {op : Opcode} {w : Int} {k : Nat} (hk1 : 1 ≤ k) (hk : k ≤ nparams op)
    (hmode : slotMode op w k = none) : instrOf op w = none := by
  cases op
  case halt => exact absurd hk (by rw [nparams]; omega)
  case read | write =>
    obtain rfl : k = 1 := le_antisymm hk hk1
    simp [instrOf, hmode]
  case jnz | jz =>
    obtain rfl | rfl : k = 1 ∨ k = 2 := by rw [nparams] at hk; omega
    all_goals simp [instrOf, hmode]
  case add | mul | lt | cmp =>
    obtain rfl | rfl | rfl : k = 1 ∨ k = 2 ∨ k = 3 := by rw [nparams] at hk; omega
    all_goals simp [instrOf, hmode]

/-- A word of a legal opcode with a digit of 2 to 9 for a slot it uses is a bad mode (rule R73). -/
theorem decode_eq_badMode {w : Int} {op : Opcode} {k : Nat} (hw : 0 ≤ w) (hop : w % 100 = opcodeNumber op)
    (hk1 : 1 ≤ k) (hk : k ≤ nparams op) (hdigit : 2 ≤ digit (k + 1) w) : decode w = .badMode := by
  have hmode : slotMode op w k = none := slotMode_none.mpr ⟨by omega, by omega⟩
  simp only [decode, if_neg (not_lt.mpr hw), opcodeOfNumber_some.mpr hop, instrOf_eq_none hk1 hk hmode]

end Sys2Proof

namespace Sys2Proof.Machine

/-- A step that fetches a word of no opcode takes the fault of it (rules R102, R201 case a). -/
theorem step_of_unknownOpcode {s : State} (hr : s.runState = .running) (hv : Valid s s.pc)
    (hd : decode (wordAt s s.pc) = .unknownOpcode) :
    step s = .next (takeFault (.unknownOpcode (wordAt s s.pc)) s) := by
  simp only [step, hr, fetchDecode, memRead_valid _ hv, hd]

/-- A step that fetches a word with a bad mode takes the fault of it (rules R102, R201 case b). -/
theorem step_of_badMode {s : State} (hr : s.runState = .running) (hv : Valid s s.pc)
    (hd : decode (wordAt s s.pc) = .badMode) : step s = .next (takeFault (.badMode (wordAt s s.pc)) s) := by
  simp only [step, hr, fetchDecode, memRead_valid _ hv, hd]

/-- Settles O2, from which words the decoder refuses and the fault each refusal raises. -/
theorem illegalWordsRaiseDecodeFault : Obligations.IllegalWordsRaiseDecodeFault := by
  intro s hr hv
  refine ⟨fun hunknown => ?_, fun op k hw hop hk1 hk hdigit => ?_⟩
  · exact step_of_unknownOpcode hr hv (decode_eq_unknownOpcode hunknown)
  · exact step_of_badMode hr hv (decode_eq_badMode hw hop hk1 hk hdigit)

end Sys2Proof.Machine

/-! One step: what it does when RUNNING, which slot decides its fault, and what a fault changes (40_step_pipeline.md rules
R101, R102, R105, R106, R110). -/

namespace Sys2Proof.Machine

/-! Slots in order (rules R105, R106) -/

/-- The resolver of a slot's kind. -/
def resolveSlot (s : State) (k : Nat) (kind : SlotKind) (m : Mode) : Except CoreFault Slot :=
  match kind with
  | .read => resolveRead s k m
  | .write => resolveWrite s k

/-- The fault of the first slot that does not resolve, the slots being numbered from `k` in increasing order. -/
def firstSlotFault (s : State) : Nat → List (SlotKind × Mode) → Option CoreFault
  | _, [] => none
  | k, (kind, m) :: rest =>
    match resolveSlot s k kind m with
    | .error f => some f
    | .ok _ => firstSlotFault s (k + 1) rest

/-- A slot that resolves has a value. -/
theorem resolveSlot_of_resolves {s : State} {k : Nat} {kind : SlotKind} {m : Mode} (h : SlotResolves s k kind m) :
    ∃ x, resolveSlot s k kind m = .ok x := by
  cases kind with
  | read =>
    obtain ⟨p, v, hread⟩ := h
    exact ⟨⟨p, v⟩, resolveRead_ok.mpr hread⟩
  | write =>
    obtain ⟨t, hwrite⟩ := h
    exact ⟨⟨t, t⟩, resolveWrite_ok.mpr ⟨hwrite, rfl⟩⟩

/-- A slot that faults by rule R105 raises a fault that leaves the spec's codes. -/
theorem resolveSlot_of_faults {s : State} {k : Nat} {kind : SlotKind} {m : Mode} {value : Int} {detail : BitVec 3}
    (h : SlotFaults s k kind m value detail) :
    ∃ f, resolveSlot s k kind m = .error f ∧ takeFault f s = faultedWith s 1 value detail := by
  have hraises : ∃ f, resolveSlot s k kind m = .error f ∧ causeCode f = 1 ∧ faultWord f = value ∧
      detailCode f = detail := by
    cases kind with
    | read => exact resolveRead_faults h
    | write => exact resolveWrite_faults h
  obtain ⟨f, hf, hcause, hvalue, hdetail⟩ := hraises
  exact ⟨f, hf, by rw [takeFault_eq, hcause, hvalue, hdetail]⟩

/-- When the slots before position `k` resolve and the slot there raises `f`, then `f` is the first fault. -/
theorem firstSlotFault_eq_some {s : State} {kind : SlotKind} {m : Mode} {f : CoreFault}
    {slots : List (SlotKind × Mode)} {k n : Nat} (hslot : slots[k]? = some (kind, m))
    (hbefore : ∀ j kind' m', j < k → slots[j]? = some (kind', m') → SlotResolves s (j + n) kind' m')
    (hf : resolveSlot s (k + n) kind m = .error f) : firstSlotFault s n slots = some f := by
  induction slots generalizing k n with
  | nil => cases hslot
  | cons slot rest ih =>
    cases k with
    | zero =>
      cases hslot
      rw [Nat.zero_add] at hf
      simp only [firstSlotFault, hf]
    | succ k =>
      have hfirst : SlotResolves s n slot.1 slot.2 := by
        simpa only [Nat.zero_add] using hbefore 0 slot.1 slot.2 k.succ_pos rfl
      have hrest : firstSlotFault s (n + 1) rest = some f := by
        refine ih hslot (fun j kind' m' hj hget => ?_) (by rwa [Nat.add_right_comm] at hf)
        rw [← Nat.add_assoc, Nat.add_right_comm]
        exact hbefore (j + 1) kind' m' (Nat.succ_lt_succ hj) hget
      obtain ⟨x, hx⟩ := resolveSlot_of_resolves hfirst
      simp only [firstSlotFault, hx, hrest]

/-! The formats take the first fault of their slots (rule R106) -/

/-- Format F3, whatever its result would be. -/
theorem execF3_of_firstSlotFault {op : Opcode} {a b d : Mode} {r : Int → Int → Except CoreFault Int} {s : State}
    {f : CoreFault} (h : firstSlotFault s 1 [(.read, a), (.read, b), (.write, d)] = some f) :
    execF3 op a b r s = .next (takeFault f s) := by
  simp only [firstSlotFault, resolveSlot] at h
  simp only [execF3, withF3, withF2]
  cases h1 : resolveRead s 1 a with
  | error f1 => simp_all [commit]
  | ok x =>
    cases h2 : resolveRead s 2 b with
    | error f2 => simp_all [commit]
    | ok y => cases h3 : resolveWrite s 3 <;> simp_all [commit]

/-- Format F2, whether its jump would be taken or not. -/
theorem execF2_of_firstSlotFault {op : Opcode} {a target : Mode} {takes : Int → Bool} {s : State} {f : CoreFault}
    (h : firstSlotFault s 1 [(.read, a), (.read, target)] = some f) :
    execF2 op a target takes s = .next (takeFault f s) := by
  simp only [firstSlotFault, resolveSlot] at h
  simp only [execF2, withF2]
  cases h1 : resolveRead s 1 a with
  | error f1 => simp_all [commit]
  | ok x => cases h2 : resolveRead s 2 target <;> simp_all [commit]

/-- READ, whatever its input holds. -/
theorem execRead_of_firstSlotFault {d : Mode} {s : State} {f : CoreFault}
    (h : firstSlotFault s 1 [(.write, d)] = some f) : execRead s = .next (takeFault f s) := by
  simp only [firstSlotFault, resolveSlot] at h
  cases h1 : resolveWrite s 1 <;> simp_all [execRead, withF1W, commit]

/-- WRITE. -/
theorem execWrite_of_firstSlotFault {a : Mode} {s : State} {f : CoreFault}
    (h : firstSlotFault s 1 [(.read, a)] = some f) : execWrite a s = .next (takeFault f s) := by
  simp only [firstSlotFault, resolveSlot] at h
  cases h1 : resolveRead s 1 a <;> simp_all [execWrite, withF1R, commit]

/-- Every instruction takes the first fault of its slots; HALT has no slot. -/
theorem exec_of_firstSlotFault {i : Instr} {s : State} {f : CoreFault}
    (h : firstSlotFault s 1 (slotsOf i) = some f) : exec i s = .next (takeFault f s) := by
  cases i with
  | add | mul | lt | cmp =>
    simp only [exec, execAdd, execMul, execLt, execCmp]
    exact execF3_of_firstSlotFault h
  | jnz | jz => exact execF2_of_firstSlotFault h
  | read => exact execRead_of_firstSlotFault h
  | write => exact execWrite_of_firstSlotFault h
  | halt => cases h

/-! Fetch out of range, and retirement beside the fault registers -/

/-- A RUNNING step whose pc is no valid index takes the fault of its fetch (rule R101). -/
theorem step_of_invalid_pc {s : State} (hr : s.runState = .running) (hv : ¬ Valid s s.pc) :
    step s = .next (takeFault (.addressing .fetch s.pc) s) := by
  simp only [step, hr, fetchDecode, memRead_invalid _ hv]

/-- Retirement raises no fault. -/
@[simp] theorem retire_faultCause (e : Effect) (s : State) : (retire e s).faultCause = s.faultCause := by
  rw [retire_eq]

/-- A step that raises a fault is fault capture and nothing else (rule R110). -/
theorem step_eq_takeFault {s t : State} (h0 : s.faultCause = 0) (hstep : step s = .next t) (ht : t.faultCause ≠ 0) :
    ∃ f, t = takeFault f s := by
  rcases step_cases hstep with ⟨i, e, _, _, rfl⟩ | ⟨f, hf, _⟩ | ⟨i, _, _, _, _, _, rfl⟩
  · exact absurd (by rw [retire_faultCause, h0]) ht
  · exact ⟨f, hf⟩
  · exact absurd h0 ht

/-! The statements -/

/-- Settles O7: the resolvers run in the order of the slots, so the first slot that faults is the fault of the
instruction, before its meaning is looked at. -/
theorem firstUnresolvedSlotFaults : Obligations.FirstUnresolvedSlotFaults := by
  intro i s k kind m value detail hslot hbefore hfaults
  obtain ⟨f, hf, hstate⟩ := resolveSlot_of_faults hfaults
  rw [exec_of_firstSlotFault (firstSlotFault_eq_some hslot hbefore hf), hstate]

/-- Settles O8: of the ways a step can end, only fault capture leaves a new fault_cause. -/
theorem faultsArePrecise : Obligations.FaultsArePrecise := by
  intro s t h0 hstep ht
  obtain ⟨f, rfl⟩ := step_eq_takeFault h0 hstep ht
  exact ⟨takeFault_eq f s, faultCodes_ok f⟩

/-- Settles O5, from what a RUNNING step does in each outcome of the fetch and of the decoding. -/
theorem stepRunsTheDecodedInstruction : Obligations.StepRunsTheDecodedInstruction := fun _ hr =>
  ⟨step_of_invalid_pc hr, fun hv =>
    ⟨step_of_unknownOpcode hr hv, step_of_badMode hr hv, fun _ hd => step_of_runsNext ⟨hr, hv, hd⟩⟩⟩

end Sys2Proof.Machine

/-! Overflow: when ADD and MUL raise it, and that nothing else does (41_arithmetic.md rule R133, rule R204). -/

namespace Sys2Proof.Machine

/-- An exact result that is no Word is an overflow (rule R133). -/
theorem checked_of_not_inWord {c : Config} {v : Int} (h : inWord c v = false) :
    checked c v = .error .arithmeticOverflow := by
  simp [checked, h]

/-- Format F3 whose slots resolve takes the overflow of a checked result that is no Word, and writes nothing. -/
theorem execF3_of_overflow {op : Opcode} {a b : Mode} {g : Int → Int → Int} {s : State} {p x q y t : Int}
    (h1 : ReadsAs s 1 a p x) (h2 : ReadsAs s 2 b q y) (h3 : WritesTo s 3 t) (hv : inWord s.cfg (g x y) = false) :
    execF3 op a b (fun x y => checked s.cfg (g x y)) s = .next (takeFault .arithmeticOverflow s) := by
  rw [execF3_resolved _ h1 h2 h3]
  simp only [checked_of_not_inWord hv]

/-- An instruction raises cause 4 only as ADD or MUL, on a result that is no Word (rule R204). -/
theorem Raises.of_cause_four {i : Instr} {s : State} {f : CoreFault} (h : Raises i s f) (hf : causeCode f = 4) :
    (opcodeOf i = .add ∨ opcodeOf i = .mul) ∧ ∃ v, inWord s.cfg v = false := by
  cases h with
  | slot k kind m hk cause faults => exact absurd (cause.symm.trans hf) (by decide)
  | overflow v hop hv => exact ⟨hop, v, hv⟩
  | exhausted hop => exact absurd hf (by decide)

/-- An execution that turns fault_cause to 4 is fault capture: a retirement and a hold leave the register alone. -/
theorem exec_turns_cause_four {i : Instr} {s t : State} (h : exec i s = .next t) (hs : s.faultCause ≠ 4)
    (ht : t.faultCause = 4) : (opcodeOf i = .add ∨ opcodeOf i = .mul) ∧ ∃ v, inWord s.cfg v = false := by
  rcases exec_next h with ⟨e, _, rfl⟩ | ⟨f, hf, rfl⟩ | ⟨_, _, _, _, rfl⟩
  · exact absurd (retire_faultCause e s ▸ ht) hs
  · exact hf.of_cause_four ht
  · exact absurd ht hs

/-- Settles O18: a result out of range is taken as the overflow before anything is written, and an execution that turns
fault_cause to 4 has such a result, which an unbounded width does not have. -/
theorem overflowFaultsAndWritesNothing : Obligations.OverflowFaultsAndWritesNothing := by
  refine ⟨fun s a b d p x q y t h1 h2 h3 => ⟨fun hv => ?_, fun hv => ?_⟩, fun c v hc => inWord_unbounded hc v,
    fun i s t hw h hs ht => ?_, fun i s t h hs ht => (exec_turns_cause_four h hs ht).1⟩
  · exact execF3_of_overflow (op := .add) (g := (· + ·)) h1 h2 h3 hv
  · exact execF3_of_overflow (op := .mul) (g := (· * ·)) h1 h2 h3 hv
  · obtain ⟨_, v, hv⟩ := exec_turns_cause_four h hs ht
    exact absurd (inWord_unbounded hw v) (by simp [hv])

end Sys2Proof.Machine

/-! The trace never affects execution (42_io.md rule R149): erasing and disabling it commutes with every operation of
the core, of the host and of the environment, because none of them reads it. -/

namespace Sys2Proof.Machine

/-- An outcome with a function applied to its next state. -/
def mapNext (f : State → State) : Host.Outcome State Fault Refusal → Host.Outcome State Fault Refusal
  | .next t => .next (f t)
  | .fault r => .fault r
  | .refused r => .refused r

/-! What is read of a state without its trace -/

@[simp] theorem untraced_runState (s : State) : (untraced s).runState = s.runState := rfl

@[simp] theorem fetchDecode_untraced (s : State) : fetchDecode (untraced s) = fetchDecode s := rfl

/-! The core -/

/-- Retirement records into the trace and reads it nowhere. -/
theorem retire_untraced (e : Effect) (s : State) : retire e (untraced s) = untraced (retire e s) := by
  simp only [retire_eq, untraced, tracedBy, Bool.false_eq_true, if_false]

/-- Each end of a step commutes with erasing the trace. -/
theorem commit_untraced (v : Verdict) (s : State) : commit v (untraced s) = mapNext untraced (commit v s) := by
  cases v with
  | retire e => exact congrArg Host.Outcome.next (retire_untraced e s)
  | hold => rfl
  | raise f => rfl

/-- The verdict on an instruction is found without the trace, so its execution commutes with erasing it. -/
theorem exec_untraced (i : Instr) (s : State) : exec i (untraced s) = mapNext untraced (exec i s) := by
  cases i with
  | add | mul | read | write | jnz | jz | lt | cmp => exact commit_untraced _ s
  | halt => exact commit_untraced (.retire { op := .halt, slots := [] }) s

/-- A step commutes with erasing the trace. -/
theorem step_untraced (s : State) : step (untraced s) = mapNext untraced (step s) := by
  simp only [step, untraced_runState, fetchDecode_untraced]
  cases s.runState with
  | idle => rfl
  | halted => rfl
  | running =>
    cases fetchDecode s with
    | error f => rfl
    | ok i => exact exec_untraced i s

/-! The host and its collaborators -/

/-- An event gives the same reply without the trace, and leaves the same state but for it. -/
theorem hostMove_untraced (e : HostEvent) (s : State) :
    hostMove e (untraced s) = Prod.map id untraced (hostMove e s) := by
  cases e with
  | load seq =>
    simp only [hostMove, hostLoad, untraced_runState]
    cases s.runState with
    | idle => simp only [apply_ite (Prod.map id untraced)]; rfl
    | running | halted => rfl
  | patch a v =>
    simp only [hostMove, hostPatch, untraced_runState]
    cases s.runState with
    | idle => simp only [apply_ite (Prod.map id untraced)]; rfl
    | running | halted => rfl
  | peek a =>
    simp only [hostMove, hostPeek, untraced_runState]
    cases s.runState with
    | idle | running | halted => rfl
  | start =>
    simp only [hostMove, hostStart, untraced_runState]
    cases s.runState with
    | idle | running | halted => rfl
  | supply v => simp only [hostMove, hostSupply, apply_ite (Prod.map id untraced)]; rfl
  | reset | status | close => rfl

/-- Attaching a collaborator, a logger included, commutes with erasing the trace. -/
theorem attach_untraced (c : Collaborator) (s : State) :
    Machine.attach c (untraced s) = untraced (Machine.attach c s) := by
  simp only [Machine.attach, untraced_runState]
  cases s.runState with
  | running | halted => rfl
  | idle =>
    cases c with
    | source queue closed => simp only [apply_ite untraced]; rfl
    | sink | logger => rfl

/-! Runs -/

/-- Every move commutes with erasing the trace. -/
theorem applyMove_untraced (m : Move) (s : State) : applyMove m (untraced s) = untraced (applyMove m s) := by
  cases m with
  | host e => exact congrArg Prod.snd (hostMove_untraced e s)
  | attach c => exact attach_untraced c s
  | core =>
    simp only [applyMove, step_untraced]
    cases step s with
    | next t | fault r | refused r => rfl

/-- Every run commutes with erasing the trace. -/
theorem runMoves_untraced (ms : List Move) (s : State) : untraced (runMoves ms s) = runMoves ms (untraced s) := by
  induction ms generalizing s with
  | nil => rfl
  | cons m ms ih => rw [runMoves_cons, runMoves_cons, applyMove_untraced, ih]

/-- Settles O32, by induction on the moves: each of them commutes with erasing the trace. -/
theorem traceNeverAffectsExecution : Obligations.TraceNeverAffectsExecution :=
  ⟨runMoves_untraced, fun e s => by rw [hostMove_untraced, Prod.map_fst, id]⟩

end Sys2Proof.Machine

/-! READ and its input: what it does with each input channel once its target resolves, and who changes the input queue
(42_io.md rules R140 to R143 and R146). -/

namespace Sys2Proof.Machine

/-! The three outcomes of a READ whose target resolves -/

/-- With input available, its head is stored and consumed (rule R140). -/
theorem exec_read_of_available {s : State} (d : Mode) {t x : Int} {rest : List Int} (ht : WritesTo s 1 t)
    (hq : s.inQueue = x :: rest) :
    exec (.read d) s = .next { s with
      mem := s.mem.write t.toNat x
      pc := s.pc + 2
      inQueue := rest
      traceSeq := tracedBy s .read [t] [t] } := by
  show execRead s = _
  rw [execRead_resolved ht, hq]
  simp only [retire_eq, if_true, hq, List.tail_cons]
  rfl

/-- On an empty closed channel it raises InputExhausted (rule R143). -/
theorem exec_read_of_exhausted {s : State} (d : Mode) {t : Int} (ht : WritesTo s 1 t) (hq : s.inQueue = [])
    (hc : s.inClosed = true) : exec (.read d) s = .next (takeFault .inputExhausted s) := by
  show execRead s = _
  simp only [execRead_resolved ht, hq, hc, if_true]

/-- On an empty open channel it holds (rule R142). -/
theorem exec_read_of_empty {s : State} (d : Mode) {t : Int} (ht : WritesTo s 1 t) (hq : s.inQueue = [])
    (hc : s.inClosed = false) : exec (.read d) s = .next s := by
  show execRead s = _
  simp only [execRead_resolved ht, hq, hc, Bool.false_eq_true, if_false]

/-! The hold (rules R34, R142) -/

/-- input_wait is 1 exactly when a READ holds: it is the next instruction, its target resolves, and the channel is empty
and open. -/
theorem inputWait_iff {s : State} :
    inputWait s = true ↔ s.inQueue = [] ∧ s.inClosed = false ∧ ∃ d t, RunsNext s (.read d) ∧ WritesTo s 1 t := by
  constructor
  · intro h
    unfold inputWait at h
    split at h
    · next hr hf hw =>
      rcases fetchDecode_cases s with ⟨_, he⟩ | ⟨_, _, he⟩ | ⟨_, _, he⟩ | ⟨i, hv, hd, he⟩ <;> rw [he] at hf <;> cases hf
      simp only [Bool.and_eq_true, List.isEmpty_iff, Bool.not_eq_true'] at h
      exact ⟨h.1, h.2, _, _, ⟨hr, hv, hd⟩, (resolveWrite_ok.mp hw).1⟩
    · cases h
  · rintro ⟨hq, hc, d, t, ⟨hr, hv, hd⟩, ht⟩
    have hf : fetchDecode s = .ok (.read d) := by simp only [fetchDecode, memRead_valid _ hv, hd]
    have hw : resolveWrite s 1 = .ok ⟨t, t⟩ := resolveWrite_ok.mpr ⟨ht, rfl⟩
    simp only [inputWait, hr, hf, hw, hq, hc]
    rfl

/-- A step of a READ that holds changes nothing. -/
theorem step_of_inputWait {s : State} (h : inputWait s = true) : step s = .next s := by
  obtain ⟨hq, hc, d, t, hrun, ht⟩ := inputWait_iff.mp h
  rw [step_of_runsNext hrun, exec_read_of_empty d ht hq hc]

/-- Steps that each change nothing change nothing together. -/
theorem coreSteps_of_fixed {s : State} (h : applyMove .core s = s) (k : Nat) : coreSteps k s = s := by
  induction k with
  | zero => rfl
  | succ k ih => rw [coreSteps_succ, h, ih]

/-- While the machine is RUNNING, an event other than a supply, a close and a reset changes nothing (rule R49). -/
theorem hostMove_of_running {e : HostEvent} {s : State} (hr : s.runState = .running) (hsupply : ∀ v, e ≠ .supply v)
    (hclose : e ≠ .close) (hreset : e ≠ .reset) : (hostMove e s).2 = s := by
  have hidle : s.runState ≠ .idle := by rw [hr]; decide
  cases e with
  | load seq => rw [hostMove_load_refused seq hidle]
  | patch a v => rw [hostMove_patch_refused a v hidle]
  | peek a => rw [hostMove_peek_state]
  | start => simp only [hostMove, hostStart, hr]
  | status => rfl
  | reset => exact absurd rfl hreset
  | supply v => exact absurd rfl (hsupply v)
  | close => exact absurd rfl hclose

/-- A supply of a Word to an open source appends it and changes nothing else (rule R46). -/
theorem hostMove_supply_open {s : State} {v : Int} (hc : s.inClosed = false) (hv : inWord s.cfg v = true) :
    hostMove (.supply v) s = (.ok, { s with inQueue := s.inQueue ++ [v] }) := by
  simp only [hostMove, hostSupply, hc, hv, Bool.not_false, Bool.and_true, if_true]

/-- Settles O19: a READ that holds is a fixed point of the step and of every move that leaves the input alone, and the
input that releases it is the input it then finds. -/
theorem readHoldsUntilSupplyOrClose : Obligations.ReadHoldsUntilSupplyOrClose := by
  intro s d t hrun ht hq hc
  have hwait : inputWait s = true := inputWait_iff.mpr ⟨hq, hc, d, t, hrun, ht⟩
  have hstep : step s = .next s := step_of_inputWait hwait
  have hcore : applyMove .core s = s := by simp only [applyMove, hstep]
  refine ⟨hstep, hwait, coreSteps_of_fixed hcore, fun m hsupply hclose hreset hattach => ?_, fun v hv => ?_, ?_⟩
  · cases m with
    | core => exact hcore
    | attach c => exact absurd rfl (hattach c)
    | host e =>
      exact hostMove_of_running hrun.1 (fun v he => hsupply v (he ▸ rfl)) (fun he => hclose (he ▸ rfl))
        (fun he => hreset (he ▸ rfl))
  · have hsupplied : applyMove (.host (.supply v)) s = { s with inQueue := [v] } := by
      simp only [applyMove, hostMove_supply_open hc hv, hq, List.nil_append]
    rw [hsupplied, hq]
    exact (step_of_runsNext (s := { s with inQueue := [v] }) hrun).trans (exec_read_of_available d ht rfl)
  · exact (step_of_runsNext (s := { s with inClosed := true }) hrun).trans (exec_read_of_exhausted d ht hq rfl)

/-! InputExhausted (rules R143, R202) -/

/-- An instruction raises cause 3 only as READ. -/
theorem Raises.of_cause_three {i : Instr} {s : State} {f : CoreFault} (h : Raises i s f) (hf : causeCode f = 3) :
    opcodeOf i = .read := by
  cases h with
  | slot k kind m hk cause faults => exact absurd (cause.symm.trans hf) (by decide)
  | overflow v hop hv => exact absurd hf (by decide)
  | exhausted hop => exact hop

/-- Settles O20: READ finds its channel exhausted before anything is written, and of the ends of an execution only fault
capture turns fault_cause. -/
theorem readRaisesInputExhausted : Obligations.ReadRaisesInputExhausted := by
  refine ⟨fun s d t ht hq hc => exec_read_of_exhausted d ht hq hc, fun i s t h hs ht => ?_⟩
  rcases exec_next h with ⟨e, _, rfl⟩ | ⟨f, hf, rfl⟩ | ⟨hop, _⟩
  · exact absurd (retire_faultCause e s ▸ ht) hs
  · exact hf.of_cause_three ht
  · exact hop

/-! The target before the input (rule R146) -/

/-- Settles O21: the target is READ's one slot, and a slot that does not resolve is the instruction's fault whatever the
channel holds; a fault would leave RUNNING, so a READ that leaves its state has resolved its target. -/
theorem readChecksItsTargetBeforeInput : Obligations.ReadChecksItsTargetBeforeInput := by
  refine ⟨fun s d hparam htarget => ?_, fun s d hr _ _ h => ?_⟩
  · exact firstUnresolvedSlotFaults (.read d) s 0 .write d _ 4 rfl (fun j kind m hj => absurd hj j.not_lt_zero)
      (Or.inr ⟨hparam, rfl, htarget, rfl⟩)
  · rcases execRead_cases d s with ⟨t, ht, _⟩ | ⟨f, _, _, hf⟩
    · exact ⟨t, ht⟩
    · have hs : takeFault f s = s := Host.Outcome.next.inj (hf.symm.trans h)
      rw [← hs] at hr
      cases hr

/-! Who changes the input queue (rule R141) -/

/-- Retirement drops the head of the input for an effect that consumes it. -/
@[simp] theorem retire_inQueue (e : Effect) (s : State) :
    (retire e s).inQueue = if e.consume then s.inQueue.tail else s.inQueue := by rw [retire_eq]

/-- Only READ consumes. -/
theorem Retires.of_consume {s : State} {i : Instr} {e : Effect} (h : Retires s i e) (he : e.consume = true) :
    ∃ d t x rest, i = .read d ∧ WritesTo s 1 t ∧ s.inQueue = x :: rest := by
  cases h with
  | read d t x rest ht hq => exact ⟨d, t, x, rest, rfl, ht, hq⟩
  | store | write | jump | halt => cases he

/-- A step leaves the input queue, or is that of a READ that finds input. -/
theorem step_inQueue {s t : State} (h : step s = .next t) :
    t.inQueue = s.inQueue ∨
      ∃ d a x rest, RunsNext s (.read d) ∧ WritesTo s 1 a ∧ s.inQueue = x :: rest := by
  rcases step_cases h with ⟨i, e, hrun, he, rfl⟩ | ⟨f, rfl, _⟩ | ⟨_, _, _, _, _, _, rfl⟩
  · cases hc : e.consume with
    | false => exact Or.inl (by simp only [retire_inQueue, hc, Bool.false_eq_true, if_false])
    | true =>
      obtain ⟨d, a, x, rest, rfl, ha, hq⟩ := he.of_consume hc
      exact Or.inr ⟨d, a, x, rest, hrun, ha, hq⟩
  · exact Or.inl rfl
  · exact Or.inl rfl

/-- The core move of a READ that finds input. -/
theorem applyMove_core_of_read {s : State} {d : Mode} {t x : Int} {rest : List Int} (hrun : RunsNext s (.read d))
    (ht : WritesTo s 1 t) (hq : s.inQueue = x :: rest) :
    applyMove .core s = { s with
      mem := s.mem.write t.toNat x
      pc := s.pc + 2
      inQueue := rest
      traceSeq := tracedBy s .read [t] [t] } := by
  simp only [applyMove, step_of_runsNext hrun, exec_read_of_available d ht hq]

/-- No event reads or writes the trace or the output, and only a supply writes the input queue, at its end
(rules R46, R47). -/
theorem hostMove_channels (e : HostEvent) (s : State) :
    (hostMove e s).2.outSeq = s.outSeq ∧ (hostMove e s).2.traceSeq = s.traceSeq ∧
      ((hostMove e s).2.inQueue = s.inQueue ∨
        ∃ v, e = .supply v ∧ (hostMove e s).2.inQueue = s.inQueue ++ [v]) := by
  cases e with
  | load seq =>
    rcases hostMove_load_cases seq s with ⟨_, _, _, heq⟩ | ⟨_, heq⟩ | ⟨_, heq⟩ <;> rw [heq] <;>
      exact ⟨rfl, rfl, Or.inl rfl⟩
  | patch a v =>
    simp only [hostMove, hostPatch]
    (repeat' split) <;> exact ⟨rfl, rfl, Or.inl rfl⟩
  | peek a => rw [hostMove_peek_state]; exact ⟨rfl, rfl, Or.inl rfl⟩
  | start => simp only [hostMove, hostStart]; split <;> exact ⟨rfl, rfl, Or.inl rfl⟩
  | reset | status | close => exact ⟨rfl, rfl, Or.inl rfl⟩
  | supply v =>
    simp only [hostMove, hostSupply]
    split
    · exact ⟨rfl, rfl, Or.inr ⟨v, rfl, rfl⟩⟩
    · exact ⟨rfl, rfl, Or.inl rfl⟩

/-- Settles O37, from what a step and an event each do to the queue; the stored value is read back by the law of memory
in canonical form. -/
theorem inputIsConsumedInOrderByRead : Obligations.InputIsConsumedInOrderByRead := by
  refine ⟨fun m s hwf hattach => ?_, fun s d t x rest hrun ht hq => by rw [applyMove_core_of_read hrun ht hq]⟩
  cases m with
  | attach c => exact absurd rfl (hattach c)
  | host e =>
    obtain ⟨_, _, hsame | ⟨v, rfl, hsupplied⟩⟩ := hostMove_channels e s
    · exact Or.inl hsame
    · exact Or.inr (Or.inl ⟨v, rfl, hsupplied⟩)
  | core =>
    rcases applyMove_core s with ⟨t, hstep, hmove⟩ | ⟨_, hmove⟩
    · rcases step_inQueue hstep with hsame | ⟨d, a, x, rest, hrun, ha, hq⟩
      · exact Or.inl (by rw [hmove, hsame])
      · refine Or.inr (Or.inr ⟨rfl, d, a, x, hrun, ha, ?_⟩)
        rw [applyMove_core_of_read hrun ha hq]
        exact ⟨hq, by simp only [wordAt, Memory.read_write _ _ _ hwf, if_true], rfl⟩
    · exact Or.inl (by rw [hmove])

end Sys2Proof.Machine

/-! The trace: which steps emit a record and what it holds (42_io.md rule R148). -/

namespace Sys2Proof.Machine

/-! The slots of an instruction, resolved in order -/

/-- The slots, numbered from `k` on, resolve to the values `xs` (rule R105). -/
inductive SlotsGive (s : State) : Nat → List (SlotKind × Mode) → List Slot → Prop where
  | nil (k : Nat) : SlotsGive s k [] []
  | cons {k : Nat} {kind : SlotKind} {m : Mode} {x : Slot} {slots : List (SlotKind × Mode)} {xs : List Slot}
      (first : resolveSlot s k kind m = .ok x) (rest : SlotsGive s (k + 1) slots xs) :
      SlotsGive s k ((kind, m) :: slots) (x :: xs)

/-- Slots that each resolve give values. -/
theorem SlotsGive.of_resolves {s : State} {slots : List (SlotKind × Mode)} {n : Nat}
    (h : ∀ k kind m, slots[k]? = some (kind, m) → SlotResolves s (k + n) kind m) : ∃ xs, SlotsGive s n slots xs := by
  induction slots generalizing n with
  | nil => exact ⟨[], .nil n⟩
  | cons slot rest ih =>
    have hfirst : SlotResolves s n slot.1 slot.2 := by simpa only [Nat.zero_add] using h 0 slot.1 slot.2 rfl
    obtain ⟨x, hx⟩ := resolveSlot_of_resolves hfirst
    obtain ⟨xs, hxs⟩ := ih (n := n + 1) fun k kind m hk => by
      rw [← Nat.add_assoc, Nat.add_right_comm]
      exact h (k + 1) kind m hk
    exact ⟨x :: xs, .cons hx hxs⟩

/-- Slots of which none faults give values. -/
theorem SlotsGive.of_no_fault {s : State} {slots : List (SlotKind × Mode)} {n : Nat}
    (h : firstSlotFault s n slots = none) : ∃ xs, SlotsGive s n slots xs := by
  induction slots generalizing n with
  | nil => exact ⟨[], .nil n⟩
  | cons slot rest ih =>
    cases hx : resolveSlot s n slot.1 slot.2 with
    | error f => simp [firstSlotFault, hx] at h
    | ok x =>
      obtain ⟨xs, hxs⟩ := ih (n := n + 1) (by simpa only [firstSlotFault, hx] using h)
      exact ⟨x :: xs, .cons hx hxs⟩

/-- What a slot's value says of the state: a read slot's parameter and operand, a write slot's target twice. -/
def SlotHolds (s : State) (k : Nat) (kind : SlotKind) (m : Mode) (p v : Int) : Prop :=
  match kind with
  | .read => ReadsAs s k m p v
  | .write => WritesTo s k v ∧ p = v

/-- A slot resolves to the value it holds. -/
theorem resolveSlot_ok {s : State} {k : Nat} {kind : SlotKind} {m : Mode} {x : Slot} :
    resolveSlot s k kind m = .ok x ↔ SlotHolds s k kind m x.param x.value := by
  cases kind with
  | read => exact resolveRead_ok
  | write => exact resolveWrite_ok

/-- As many values as slots. -/
theorem SlotsGive.length_eq {s : State} {slots : List (SlotKind × Mode)} {n : Nat} {xs : List Slot}
    (h : SlotsGive s n slots xs) : xs.length = slots.length := by
  induction h with
  | nil => rfl
  | cons _ _ ih => rw [List.length_cons, List.length_cons, ih]

/-- Each value is what its own slot holds. -/
theorem SlotsGive.holds {s : State} {slots : List (SlotKind × Mode)} {n : Nat} {xs : List Slot}
    (h : SlotsGive s n slots xs) {k : Nat} {kind : SlotKind} {m : Mode} (hk : slots[k]? = some (kind, m)) :
    ∃ x, xs[k]? = some x ∧ SlotHolds s (k + n) kind m x.param x.value := by
  induction h generalizing k with
  | nil => cases hk
  | cons first rest ih =>
    cases k with
    | zero =>
      cases hk
      exact ⟨_, rfl, by rw [Nat.zero_add]; exact resolveSlot_ok.mp first⟩
    | succ k =>
      obtain ⟨x, hx, hholds⟩ := ih hk
      exact ⟨x, hx, by rwa [Nat.add_assoc, Nat.add_comm 1]⟩

/-- An instruction has as many slots as its opcode has parameters (rule R75). -/
theorem length_slotsOf (i : Instr) : (slotsOf i).length = nparams (opcodeOf i) := by
  cases i <;> rfl

/-- The values the slots give are what a trace record holds. -/
theorem SlotsGive.recorded {s : State} {i : Instr} {xs : List Slot} (h : SlotsGive s 1 (slotsOf i) xs) :
    SlotsRecorded s i (xs.map Slot.param) (xs.map Slot.value) := by
  have hlen : xs.length = nparams (opcodeOf i) := h.length_eq.trans (length_slotsOf i)
  refine ⟨by rw [List.length_map, hlen], by rw [List.length_map, hlen], fun k kind m hk => ?_⟩
  obtain ⟨x, hx, hholds⟩ := h.holds hk
  exact ⟨x.param, x.value, by rw [List.getElem?_map, hx]; rfl, by rw [List.getElem?_map, hx]; rfl, hholds⟩

/-- Slots that give values all resolve. -/
theorem SlotsGive.resolves {s : State} {slots : List (SlotKind × Mode)} {n : Nat} {xs : List Slot}
    (h : SlotsGive s n slots xs) {k : Nat} {kind : SlotKind} {m : Mode} (hk : slots[k]? = some (kind, m)) :
    SlotResolves s (k + n) kind m := by
  obtain ⟨x, _, hholds⟩ := h.holds hk
  cases kind with
  | read => exact ⟨x.param, x.value, hholds⟩
  | write => exact ⟨x.value, hholds.1⟩

/-- A resolved write slot is its target twice. -/
theorem resolveWrite_eq {s : State} {k : Nat} {x : Slot} (h : resolveWrite s k = .ok x) :
    ∃ t, x = ⟨t, t⟩ ∧ WritesTo s k t := by
  obtain ⟨p, t⟩ := x
  obtain ⟨ht, hp : p = t⟩ := resolveWrite_ok.mp h
  exact ⟨t, by rw [hp], ht⟩

/-! The slots of each format that has some (rule R75) -/

theorem SlotsGive.of_f3 {s : State} {a b d : Mode} {xs : List Slot}
    (h : SlotsGive s 1 [(.read, a), (.read, b), (.write, d)] xs) :
    ∃ p x q y t, xs = [⟨p, x⟩, ⟨q, y⟩, ⟨t, t⟩] ∧ ReadsAs s 1 a p x ∧ ReadsAs s 2 b q y ∧ WritesTo s 3 t := by
  rcases h with _ | ⟨h1, _ | ⟨h2, _ | ⟨h3, _ | _⟩⟩⟩
  obtain ⟨t, rfl, ht⟩ := resolveWrite_eq h3
  exact ⟨_, _, _, _, t, rfl, resolveRead_ok.mp h1, resolveRead_ok.mp h2, ht⟩

theorem SlotsGive.of_f2 {s : State} {a m : Mode} {xs : List Slot} (h : SlotsGive s 1 [(.read, a), (.read, m)] xs) :
    ∃ p x q y, xs = [⟨p, x⟩, ⟨q, y⟩] ∧ ReadsAs s 1 a p x ∧ ReadsAs s 2 m q y := by
  rcases h with _ | ⟨h1, _ | ⟨h2, _ | _⟩⟩
  exact ⟨_, _, _, _, rfl, resolveRead_ok.mp h1, resolveRead_ok.mp h2⟩

theorem SlotsGive.of_f1r {s : State} {a : Mode} {xs : List Slot} (h : SlotsGive s 1 [(.read, a)] xs) :
    ∃ p x, xs = [⟨p, x⟩] ∧ ReadsAs s 1 a p x := by
  rcases h with _ | ⟨h1, _ | _⟩
  exact ⟨_, _, rfl, resolveRead_ok.mp h1⟩

theorem SlotsGive.of_f1w {s : State} {d : Mode} {xs : List Slot} (h : SlotsGive s 1 [(.write, d)] xs) :
    ∃ t, xs = [⟨t, t⟩] ∧ WritesTo s 1 t := by
  rcases h with _ | ⟨h1, _ | _⟩
  obtain ⟨t, rfl, ht⟩ := resolveWrite_eq h1
  exact ⟨t, rfl, ht⟩

/-! The operation, once the slots are resolved (rules R107, R133, R141 to R143) -/

/-- The operation of `i` has a result: a sum or product is a Word, and a READ has a value to take. -/
def ResultOk (s : State) (i : Instr) : Prop :=
  match i with
  | .add a b _ => ∀ p x q y, ReadsAs s 1 a p x → ReadsAs s 2 b q y → inWord s.cfg (x + y) = true
  | .mul a b _ => ∀ p x q y, ReadsAs s 1 a p x → ReadsAs s 2 b q y → inWord s.cfg (x * y) = true
  | .read _ => s.inQueue ≠ []
  | .write _ | .jnz _ _ | .jz _ _ | .lt _ _ _ | .cmp _ _ _ | .halt => True

/-- A step completes an instruction when it runs it, its slots give values and its operation has a result. -/
theorem completes_iff {s : State} {i : Instr} :
    Completes s i ↔ RunsNext s i ∧ (∃ xs, SlotsGive s 1 (slotsOf i) xs) ∧ ResultOk s i := by
  constructor
  · rintro ⟨hrun, hslots, hresult⟩
    exact ⟨hrun, SlotsGive.of_resolves hslots, hresult⟩
  · rintro ⟨hrun, ⟨xs, hxs⟩, hresult⟩
    exact ⟨hrun, fun k kind m => hxs.resolves, hresult⟩

/-- The outcome of a retirement with this opcode and these slots. -/
def RetiresWith (s : State) (op : Opcode) (xs : List Slot) (o : Host.Outcome State Fault Refusal) : Prop :=
  ∃ e, e.op = op ∧ e.slots = xs ∧ o = .next (retire e s)

/-- The outcome of a fault, or of a READ that holds. -/
def FaultsOrHolds (s : State) (o : Host.Outcome State Fault Refusal) : Prop :=
  (∃ f, o = .next (takeFault f s)) ∨ inputWait s = true ∧ o = .next s

/-- Operands are unique, so a result of all of them is the result of those that were read. -/
theorem inWord_result_iff {s : State} {a b : Mode} {p x q y : Int} (g : Int → Int → Int) (h1 : ReadsAs s 1 a p x)
    (h2 : ReadsAs s 2 b q y) :
    (∀ p' x' q' y', ReadsAs s 1 a p' x' → ReadsAs s 2 b q' y' → inWord s.cfg (g x' y') = true) ↔
      inWord s.cfg (g x y) = true := by
  constructor
  · exact fun h => h p x q y h1 h2
  · intro h p' x' q' y' h1' h2'
    rw [(readsAs_unique h1' h1).2, (readsAs_unique h2' h2).2, h]

/-- An exact result that is a Word is the result (rule R133). -/
theorem checked_of_inWord {c : Config} {v : Int} (h : inWord c v = true) : checked c v = .ok v := by
  simp only [checked, h, if_true]

/-- Format F3 retires when its slots resolve and its operation has a result. -/
theorem execF3_of_ok {op : Opcode} {a b : Mode} {r : Int → Int → Except CoreFault Int} {s : State} {p x q y t v : Int}
    (h1 : ReadsAs s 1 a p x) (h2 : ReadsAs s 2 b q y) (h3 : WritesTo s 3 t) (hr : r x y = .ok v) :
    RetiresWith s op [⟨p, x⟩, ⟨q, y⟩, ⟨t, t⟩] (execF3 op a b r s) :=
  ⟨{ op := op, slots := [⟨p, x⟩, ⟨q, y⟩, ⟨t, t⟩], write := some (t, v) }, rfl, rfl, by
    rw [execF3_resolved r h1 h2 h3, hr]⟩

/-- An instruction whose slots give values and whose operation has a result retires with those values. -/
theorem exec_of_resultOk {s : State} {i : Instr} {xs : List Slot} (h : SlotsGive s 1 (slotsOf i) xs)
    (hok : ResultOk s i) : RetiresWith s (opcodeOf i) xs (exec i s) := by
  cases i with
  | add a b d =>
    obtain ⟨p, x, q, y, t, rfl, h1, h2, h3⟩ := h.of_f3
    simp only [exec, execAdd, opcodeOf]
    exact execF3_of_ok h1 h2 h3 (checked_of_inWord ((inWord_result_iff (· + ·) h1 h2).mp hok))
  | mul a b d =>
    obtain ⟨p, x, q, y, t, rfl, h1, h2, h3⟩ := h.of_f3
    simp only [exec, execMul, opcodeOf]
    exact execF3_of_ok h1 h2 h3 (checked_of_inWord ((inWord_result_iff (· * ·) h1 h2).mp hok))
  | lt a b d | cmp a b d =>
    obtain ⟨p, x, q, y, t, rfl, h1, h2, h3⟩ := h.of_f3
    simp only [exec, execLt, execCmp, opcodeOf]
    exact execF3_of_ok h1 h2 h3 rfl
  | jnz a m | jz a m =>
    obtain ⟨p, x, q, y, rfl, h1, h2⟩ := h.of_f2
    exact ⟨_, rfl, rfl, execF2_resolved _ h1 h2⟩
  | read d =>
    obtain ⟨t, rfl, ht⟩ := h.of_f1w
    obtain ⟨x, rest, hq⟩ := List.exists_cons_of_ne_nil hok
    exact ⟨_, rfl, rfl, (execRead_resolved ht).trans (by rw [hq])⟩
  | write a =>
    obtain ⟨p, x, rfl, h1⟩ := h.of_f1r
    exact ⟨_, rfl, rfl, execWrite_resolved h1⟩
  | halt =>
    cases h
    exact ⟨_, rfl, rfl, execHalt_eq s⟩

/-- An instruction whose slots give values and whose operation has no result overflows, or finds no input. -/
theorem exec_of_not_resultOk {s : State} {i : Instr} {xs : List Slot} (hrun : RunsNext s i)
    (h : SlotsGive s 1 (slotsOf i) xs) (hno : ¬ ResultOk s i) : FaultsOrHolds s (exec i s) := by
  cases i with
  | add a b d =>
    obtain ⟨p, x, q, y, t, rfl, h1, h2, h3⟩ := h.of_f3
    have hv := (inWord_result_iff (· + ·) h1 h2).not.mp hno
    exact Or.inl ⟨_, execF3_of_overflow (g := (· + ·)) h1 h2 h3 (Bool.eq_false_of_not_eq_true hv)⟩
  | mul a b d =>
    obtain ⟨p, x, q, y, t, rfl, h1, h2, h3⟩ := h.of_f3
    have hv := (inWord_result_iff (· * ·) h1 h2).not.mp hno
    exact Or.inl ⟨_, execF3_of_overflow (g := (· * ·)) h1 h2 h3 (Bool.eq_false_of_not_eq_true hv)⟩
  | read d =>
    obtain ⟨t, rfl, ht⟩ := h.of_f1w
    have hq : s.inQueue = [] := not_not.mp hno
    cases hc : s.inClosed with
    | true => exact Or.inl ⟨_, exec_read_of_exhausted d ht hq hc⟩
    | false => exact Or.inr ⟨inputWait_iff.mpr ⟨hq, hc, d, t, hrun, ht⟩, exec_read_of_empty d ht hq hc⟩
  | lt | cmp | jnz | jz | write | halt => exact absurd trivial hno

/-! The step, by whether it completes its instruction -/

/-- A step that completes an instruction retires it with the values of its slots. -/
theorem step_of_completes {s : State} {i : Instr} (h : Completes s i) :
    ∃ xs, SlotsGive s 1 (slotsOf i) xs ∧ RetiresWith s (opcodeOf i) xs (step s) := by
  obtain ⟨hrun, ⟨xs, hxs⟩, hok⟩ := completes_iff.mp h
  exact ⟨xs, hxs, step_of_runsNext hrun ▸ exec_of_resultOk hxs hok⟩

/-- An instruction that is run and not completed faults on its first slot without a value, or on its operation, or is a
READ that holds. -/
theorem exec_of_not_completes {s : State} {i : Instr} (hrun : RunsNext s i) (hno : ¬ Completes s i) :
    FaultsOrHolds s (exec i s) := by
  cases hf : firstSlotFault s 1 (slotsOf i) with
  | some f => exact Or.inl ⟨f, exec_of_firstSlotFault hf⟩
  | none =>
    obtain ⟨xs, hxs⟩ := SlotsGive.of_no_fault hf
    exact exec_of_not_resultOk hrun hxs fun hok => hno (completes_iff.mpr ⟨hrun, ⟨xs, hxs⟩, hok⟩)

/-- A step that completes no instruction takes a fault, or is that of a READ that holds. -/
theorem step_of_not_completes {s : State} (hr : s.runState = .running) (hno : ∀ i, ¬ Completes s i) :
    FaultsOrHolds s (step s) := by
  rcases step_running_cases hr with ⟨i, hrun, hstep⟩ | ⟨f, _, hstep⟩
  · exact hstep ▸ exec_of_not_completes hrun (hno i)
  · exact Or.inl ⟨f, hstep⟩

/-- Settles O38: a step that completes its instruction retires it, and retirement alone writes the trace; the others
are fault capture and the hold. -/
theorem traceRecordsEveryRetiredStep : Obligations.TraceRecordsEveryRetiredStep := by
  refine ⟨fun s i h => ?_, fun s t h0 hstep ht => ?_, fun s t hwait hstep => ?_, fun s t hstep hno => ?_,
    fun e s => (hostMove_channels e s).2.1⟩
  · obtain ⟨xs, hxs, e, hop, rfl, hstep⟩ := step_of_completes h
    exact ⟨_, _, _, hstep, retire_faultCause e s, hxs.recorded, by rw [retire_eq, hop]⟩
  · obtain ⟨f, rfl⟩ := step_eq_takeFault h0 hstep ht
    exact takeFault_traceSeq f s
  · cases (step_of_inputWait hwait).symm.trans hstep
    rfl
  · rcases step_of_not_completes (running_of_step hstep) hno with ⟨f, hf⟩ | ⟨hwait, hs⟩
    · cases hf.symm.trans hstep
      exact ⟨rfl, Or.inr ⟨_, _, _, causeCode_ne_zero f, takeFault_eq f s⟩⟩
    · cases hs.symm.trans hstep
      exact ⟨rfl, Or.inl ⟨hwait, rfl⟩⟩

end Sys2Proof.Machine

/-! Taken jumps: the next state of JNZ and JZ, jumps out of memory, and jumps to their own pc (43_control.md rules R160
to R165). -/

namespace Sys2Proof.Machine

/-! What a taken jump does -/

/-- Format F2 whose slots resolve and whose test passes retires with pc at its target. -/
theorem execF2_of_taken {op : Opcode} {a m : Mode} {takes : Int → Bool} {s : State} {p x q target : Int}
    (hop : op = .jnz ∨ op = .jz) (h1 : ReadsAs s 1 a p x) (h2 : ReadsAs s 2 m q target) (hx : takes x = true) :
    execF2 op a m takes s =
      .next { s with pc := target, traceSeq := tracedBy s op [p, q] [x, target] } := by
  rw [execF2_resolved takes h1 h2, hx, retire_eq]
  rcases hop with rfl | rfl <;> rfl

/-- `i` is a jump with these slot modes, and takes its jump on the operand `x` (rules R160, R161). -/
def TakesJump (i : Instr) (a m : Mode) (x : Int) : Prop :=
  (i = .jnz a m ∧ x ≠ 0) ∨ (i = .jz a m ∧ x = 0)

/-- A jump that is taken goes to its target, and beside pc and the trace leaves the state. -/
theorem exec_of_taken_jump {s : State} {i : Instr} {a m : Mode} {p x q target : Int}
    (hi : TakesJump i a m x) (h1 : ReadsAs s 1 a p x) (h2 : ReadsAs s 2 m q target) :
    exec i s = .next { s with pc := target, traceSeq := tracedBy s (opcodeOf i) [p, q] [x, target] } := by
  rcases hi with ⟨rfl, hx⟩ | ⟨rfl, hx⟩
  · exact execF2_of_taken (takes := nonZero) (Or.inl rfl) h1 h2 (decide_eq_true hx)
  · exact execF2_of_taken (takes := isZero) (Or.inr rfl) h1 h2 (decide_eq_true hx)

/-- Settles O22: the jump retires with the target in pc and memory as it was, so the next step is one whose pc is no
valid index. -/
theorem jumpTargetFaultsAtTheNextFetch : Obligations.JumpTargetFaultsAtTheNextFetch := by
  intro s i a m p x q target hi hrun h1 h2 hv
  exact ⟨{ s with pc := target, traceSeq := tracedBy s (opcodeOf i) [p, q] [x, target] },
    (step_of_runsNext hrun).trans (exec_of_taken_jump hi h1 h2), rfl, rfl, hrun.1, step_of_invalid_pc hrun.1 hv, rfl⟩

/-! A taken jump to its own pc (rule R164) -/

/-- Its step changes the trace alone. -/
theorem applyMove_core_of_self_jump {s : State} {i : Instr} {a m : Mode} {p x q : Int}
    (hi : TakesJump i a m x) (hrun : RunsNext s i) (h1 : ReadsAs s 1 a p x)
    (h2 : ReadsAs s 2 m q s.pc) :
    applyMove .core s = { s with traceSeq := tracedBy s (opcodeOf i) [p, q] [x, s.pc] } := by
  simp only [applyMove, step_of_runsNext hrun, exec_of_taken_jump hi h1 h2]

/-- Any number of its steps changes the trace alone: the next instruction and its operands do not read the trace, so
every step finds the same jump. -/
theorem coreSteps_of_self_jump {s : State} {i : Instr} {a m : Mode} {p x q : Int}
    (hi : TakesJump i a m x) (hrun : RunsNext s i) (h1 : ReadsAs s 1 a p x)
    (h2 : ReadsAs s 2 m q s.pc) (k : Nat) : ∃ trace, coreSteps k s = { s with traceSeq := trace } := by
  induction k generalizing s with
  | zero => exact ⟨s.traceSeq, rfl⟩
  | succ k ih =>
    rw [coreSteps_succ, applyMove_core_of_self_jump hi hrun h1 h2]
    exact ih (s := { s with traceSeq := _ }) hrun h1 h2

/-- Settles O23: a self-jump leaves everything but the trace, however often it is stepped, and it was RUNNING. -/
theorem selfJumpNeverHalts : Obligations.SelfJumpNeverHalts := by
  intro s i a m p x q hi hrun h1 h2 k
  obtain ⟨trace, hk⟩ := coreSteps_of_self_jump hi hrun h1 h2 k
  rw [hk]
  exact ⟨hrun.1, rfl, rfl, rfl⟩

end Sys2Proof.Machine

/-! HALT, and how a run ends: what halts the machine, and what a halted machine still does (45_halt.md rules R180 to
R183). -/

namespace Sys2Proof

/-- The words of HALT: it has no slot, so no digit above its opcode is looked at (rule R71). -/
theorem decode_eq_halt {w : Int} : decode w = .ok .halt ↔ 0 ≤ w ∧ w % 100 = 99 := by
  rw [decode_eq_ok]
  exact ⟨fun ⟨hw, hop, _⟩ => ⟨hw, hop⟩, fun ⟨hw, hop⟩ => ⟨hw, hop, rfl⟩⟩

end Sys2Proof

namespace Sys2Proof.Machine

/-! HALT (rule R180) -/

/-- HALT changes run_state and the trace alone. -/
theorem exec_halt (s : State) :
    exec .halt s = .next { s with runState := .halted, traceSeq := tracedBy s .halt [] [] } :=
  (execHalt_eq s).trans (congrArg _ (retire_eq _ s))

/-- Settles O17, from the words that decode to HALT and what HALT then does. -/
theorem haltStopsTheMachine : Obligations.HaltStopsTheMachine := by
  refine ⟨fun w => decode_eq_halt, rfl, fun s hr hv => step_of_invalid_pc hr hv, exec_halt, fun s hr hv hw hop => ?_⟩
  have hrun : RunsNext s .halt := ⟨hr, hv, decode_eq_halt.mpr ⟨hw, hop⟩⟩
  rw [step_of_runsNext hrun, exec_halt]

/-! A machine that has halted (rules R181, R182) -/

/-- Where the core is not RUNNING, a core move changes nothing. -/
theorem applyMove_core_of_ne_running {s : State} (h : s.runState ≠ .running) : applyMove .core s = s := by
  rcases applyMove_core s with ⟨t, hstep, _⟩ | ⟨_, hs⟩
  · exact absurd (running_of_step hstep) h
  · exact hs

/-- Outside IDLE a start is refused (rule R44). -/
theorem hostMove_start_refused {s : State} (h : s.runState ≠ .idle) : hostMove .start s = (.refused, s) := by
  cases hr : s.runState with
  | idle => exact absurd hr h
  | running => simp only [hostMove, hostStart, hr]
  | halted => simp only [hostMove, hostStart, hr]

/-- Outside IDLE an event other than a reset changes the input channel at most. -/
theorem hostMove_of_ne_idle {e : HostEvent} {s : State} (h : s.runState ≠ .idle) (hreset : e ≠ .reset) :
    (hostMove e s).2 =
      { s with inQueue := (hostMove e s).2.inQueue, inClosed := (hostMove e s).2.inClosed } := by
  cases e with
  | load seq => rw [hostMove_load_refused seq h]
  | patch a v => rw [hostMove_patch_refused a v h]
  | peek a => rw [hostMove_peek_state]
  | start => rw [hostMove_start_refused h]
  | reset => exact absurd rfl hreset
  | status | close => rfl
  | supply v => simp only [hostMove, hostSupply]; split <;> rfl

/-- Settles O34: HALTED is neither RUNNING, where the core steps, nor IDLE, where the host writes more than the input
channel. -/
theorem onlyResetLeavesHalted : Obligations.OnlyResetLeavesHalted := by
  intro s hs
  have hrunning : s.runState ≠ .running := by rw [hs]; decide
  have hidle : s.runState ≠ .idle := by rw [hs]; decide
  have hcore : applyMove .core s = s := applyMove_core_of_ne_running hrunning
  refine ⟨hcore, hostMove_start_refused hidle, rfl, fun m hreset hattach => ?_⟩
  cases m with
  | core => rw [hcore]
  | host e => exact hostMove_of_ne_idle hidle fun he => hreset (he ▸ rfl)
  | attach c => exact absurd rfl (hattach c)

/-! The moves that end a run (rule R183) -/

/-- Of the events, start and reset alone write run_state. -/
theorem hostMove_runState {e : HostEvent} (s : State) (hstart : e ≠ .start) (hreset : e ≠ .reset) :
    (hostMove e s).2.runState = s.runState := by
  cases e with
  | load seq =>
    rcases hostMove_load_cases seq s with ⟨_, _, _, heq⟩ | ⟨_, heq⟩ | ⟨_, heq⟩ <;> rw [heq]
  | patch a v => simp only [hostMove, hostPatch]; (repeat' split) <;> rfl
  | peek a => rw [hostMove_peek_state]
  | start => exact absurd rfl hstart
  | reset => exact absurd rfl hreset
  | status | close => rfl
  | supply v => simp only [hostMove, hostSupply]; split <;> rfl

/-- No event halts the machine: a start leads to RUNNING or is refused, and a reset leads to IDLE. -/
theorem hostMove_ne_halted (e : HostEvent) {s : State} (h : s.runState ≠ .halted) :
    (hostMove e s).2.runState ≠ .halted := by
  by_cases hreset : e = .reset
  · subst hreset; exact RunState.noConfusion
  · by_cases hstart : e = .start
    · subst hstart
      by_cases hidle : s.runState = .idle
      · simp only [hostMove, hostStart, hidle]; exact RunState.noConfusion
      · rwa [hostMove_start_refused hidle]
    · rwa [hostMove_runState s hstart hreset]

/-- Attaching leaves run_state. -/
theorem attach_runState (c : Collaborator) (s : State) : (Machine.attach c s).runState = s.runState := by
  rcases attach_cases c s with h | ⟨_, ⟨_, _, _, _, h⟩ | ⟨_, h⟩ | ⟨_, h⟩⟩ <;> rw [h]

/-- HALT's effect is retired by HALT alone. -/
theorem Retires.of_op_halt {s : State} {i : Instr} {e : Effect} (h : Retires s i e) (he : e.op = .halt) :
    i = .halt := by
  cases h with
  | halt => rfl
  | store _ _ _ _ _ _ _ _ _ _ _ hop => subst he; simp at hop
  | jump _ _ _ _ _ _ _ _ _ _ hop => subst he; simp at hop
  | read | write => cases he

/-- A retirement that leaves RUNNING for HALTED is HALT's. -/
theorem Retires.of_halted {s : State} {i : Instr} {e : Effect} (h : Retires s i e) (hr : s.runState ≠ .halted)
    (ht : (retire e s).runState = .halted) : i = .halt := by
  refine h.of_op_halt ?_
  by_contra hop
  rw [retire_eq] at ht
  exact hr ((runStateAfter_of_ne hop s.runState).symm.trans ht)

/-- A step that halts the machine runs HALT or takes a fault. -/
theorem step_to_halted {s t : State} (hs : s.runState ≠ .halted) (hstep : step s = .next t)
    (ht : t.runState = .halted) : RunsNext s .halt ∨ ∃ f, t = takeFault f s := by
  rcases step_cases hstep with ⟨i, e, hrun, he, rfl⟩ | ⟨f, hf, _⟩ | ⟨_, _, _, _, _, _, rfl⟩
  · exact Or.inl (he.of_halted hs ht ▸ hrun)
  · exact Or.inr ⟨f, hf⟩
  · exact absurd ht hs

/-- A core move halts the machine exactly when it runs HALT or takes a fault. -/
theorem applyMove_core_halted_iff {s : State} (hs : s.runState ≠ .halted) :
    (applyMove .core s).runState = .halted ↔
      RunsNext s .halt ∨ ∃ cause value detail, cause ≠ 0 ∧ step s = .next (faultedWith s cause value detail) := by
  constructor
  · intro h
    rcases applyMove_core s with ⟨t, hstep, rfl⟩ | ⟨_, hsame⟩
    · refine (step_to_halted hs hstep h).imp_right fun ⟨f, hf⟩ => ?_
      exact ⟨_, _, _, causeCode_ne_zero f, by rw [hstep, hf, takeFault_eq]⟩
    · exact absurd (hsame ▸ h) hs
  · rintro (hrun | ⟨cause, value, detail, _, hstep⟩)
    · simp only [applyMove, step_of_runsNext hrun, exec_halt]
    · simp only [applyMove, hstep, faultedWith]

/-- A run has ended exactly in HALTED. -/
theorem ended_iff {s : State} : ended s = true ↔ s.runState = .halted := decide_eq_true_iff

/-- Settles O51: of the moves, the core's alone can lead to HALTED. -/
theorem runEndsOnlyByHaltOrFault : Obligations.RunEndsOnlyByHaltOrFault := by
  intro m s hs
  have hs : s.runState ≠ .halted := of_decide_eq_false hs
  rw [ended_iff]
  cases m with
  | core => exact (applyMove_core_halted_iff hs).trans (and_iff_right rfl).symm
  | host e => exact iff_of_false (hostMove_ne_halted e hs) fun ⟨h, _⟩ => Move.noConfusion h
  | attach c => exact iff_of_false (attach_runState c s ▸ hs) fun ⟨h, _⟩ => Move.noConfusion h

end Sys2Proof.Machine

/-! Reset: what it sets and what it leaves (70_reset_and_hazards.md rule R230). -/

namespace Sys2Proof.Machine

/-- Only a RUNNING machine waits for input (rule R34). -/
theorem inputWait_of_not_running {s : State} (h : s.runState ≠ .running) : inputWait s = false := by
  refine Bool.eq_false_iff.mpr fun hwait => ?_
  obtain ⟨_, _, _, _, ⟨hrun, _⟩, _⟩ := inputWait_iff.mp hwait
  exact h hrun

/-- Reset is accepted in every state, sets the registers, and keeps the parameters, the channels and the trace. -/
theorem hostMove_reset (s : State) : hostMove .reset s = (.ok, { s with
    mem := [], runState := .idle, pc := 0, memLen := 0, faultCause := 0, faultPc := 0, faultValue := 0,
    faultDetail := 0 }) := rfl

/-- Settles O44: `input_wait` is 0 because reset leads to IDLE; the other registers are set to their values. -/
theorem resetSetsEveryRegister : Obligations.ResetSetsEveryRegister := by
  have hidle (s : State) : (hostMove .reset s).2.runState ≠ .running := by
    rw [hostMove_reset]
    exact RunState.noConfusion
  have hnew : State.reset.runState ≠ .running := RunState.noConfusion
  refine ⟨fun s => ?_, fun s => inputWait_of_not_running (hidle s), rfl, rfl, rfl, rfl, rfl, rfl, rfl,
    inputWait_of_not_running hnew⟩
  rw [hostMove_reset]
  exact ⟨rfl, [], rfl⟩

end Sys2Proof.Machine

/-! The words of an instruction: its canonical word, up to the ignored digits (30_encoding.md rules R71, R74, R80,
R81). -/

namespace Sys2Proof

/-! The modes of a word -/

/-- The slots of an opcode, numbered from `k` on, have these modes in a word. -/
def ModesAt (op : Opcode) (w : Int) : Nat → List Mode → Prop
  | _, [] => True
  | k, m :: ms => slotMode op w k = some m ∧ ModesAt op w (k + 1) ms

/-- A word gives its opcode an instruction exactly when the slots have the modes of it. -/
theorem instrOf_eq_some {i : Instr} {w : Int} :
    instrOf (opcodeOf i) w = some i ↔ ModesAt (opcodeOf i) w 1 (modesOf i) := by
  cases i with
  | halt => exact iff_of_true rfl trivial
  | read | write =>
    simp only [instrOf, opcodeOf, modesOf, ModesAt, Option.pure_def, Option.bind_eq_bind, Option.bind_eq_some_iff,
      Option.some.injEq, Instr.read.injEq, Instr.write.injEq, exists_eq_right, and_true]
  | jnz | jz =>
    simp only [instrOf, opcodeOf, modesOf, ModesAt, Option.pure_def, Option.bind_eq_bind, Option.bind_eq_some_iff,
      Option.some.injEq, Instr.jnz.injEq, Instr.jz.injEq, and_true]
    constructor
    · rintro ⟨_, h1, _, h2, rfl, rfl⟩; exact ⟨h1, h2⟩
    · rintro ⟨h1, h2⟩; exact ⟨_, h1, _, h2, rfl, rfl⟩
  | add | mul | lt | cmp =>
    simp only [instrOf, opcodeOf, modesOf, ModesAt, Option.pure_def, Option.bind_eq_bind, Option.bind_eq_some_iff,
      Option.some.injEq, Instr.add.injEq, Instr.mul.injEq, Instr.lt.injEq, Instr.cmp.injEq, and_true]
    constructor
    · rintro ⟨_, h1, _, h2, _, h3, rfl, rfl, rfl⟩; exact ⟨h1, h2, h3⟩
    · rintro ⟨h1, h2, h3⟩; exact ⟨_, h1, _, h2, _, h3, rfl, rfl, rfl⟩

/-- The digit of a mode is 0 or 1 (rule R73). -/
theorem modeDigit_cases (m : Mode) : modeDigit m = 0 ∨ modeDigit m = 1 := by
  cases m
  · exact Or.inl rfl
  · exact Or.inr rfl

/-! The words of each format (rule R75) -/

/-- Format F3: the digits give two modes, and the third is a legal digit that is ignored (rule R74). -/
theorem f3_word_iff {op : Opcode} {w c : Int} {a b d : Mode} (hop : op = .add ∨ op = .mul ∨ op = .lt ∨ op = .cmp)
    (hc : 0 ≤ c ∧ c < 100) :
    0 ≤ w ∧ w % 100 = c ∧ ModesAt op w 1 [a, b, d] ↔
      d = .positional ∧ ∃ t h : Int, (t = 0 ∨ t = 1) ∧ 0 ≤ h ∧
        w = c + 100 * modeDigit a + 1000 * modeDigit b + t * 10000 + h * 10 ^ 5 := by
  obtain ⟨hk1, hk2, hk3⟩ : slotKind op 1 = .read ∧ slotKind op 2 = .read ∧ slotKind op 3 = .write := by
    rcases hop with rfl | rfl | rfl | rfl <;> exact ⟨rfl, rfl, rfl⟩
  have ha := modeDigit_cases a
  have hb := modeDigit_cases b
  simp only [ModesAt, slotMode_read hk1, slotMode_read hk2, slotMode_write hk3, digit, and_true]
  constructor
  · rintro ⟨hw, hmod, h1, h2, hd, h3⟩
    exact ⟨hd, w / 10000 % 10, w / 100000, by omega, by omega, by omega⟩
  · rintro ⟨hd, t, h, ht, hh, rfl⟩
    exact ⟨by omega, by omega, by omega, by omega, hd, by omega⟩

/-- Format F2: the digits give two modes. -/
theorem f2_word_iff {op : Opcode} {w c : Int} {a b : Mode} (hop : op = .jnz ∨ op = .jz) (hc : 0 ≤ c ∧ c < 100) :
    0 ≤ w ∧ w % 100 = c ∧ ModesAt op w 1 [a, b] ↔
      ∃ h : Int, 0 ≤ h ∧ w = c + 100 * modeDigit a + 1000 * modeDigit b + h * 10 ^ 4 := by
  obtain ⟨hk1, hk2⟩ : slotKind op 1 = .read ∧ slotKind op 2 = .read := by
    rcases hop with rfl | rfl <;> exact ⟨rfl, rfl⟩
  have ha := modeDigit_cases a
  have hb := modeDigit_cases b
  simp only [ModesAt, slotMode_read hk1, slotMode_read hk2, digit, and_true]
  constructor
  · rintro ⟨hw, hmod, h1, h2⟩
    exact ⟨w / 10000, by omega, by omega⟩
  · rintro ⟨h, hh, rfl⟩
    exact ⟨by omega, by omega, by omega, by omega⟩

/-- Format F1R: the digit gives one mode. -/
theorem write_word_iff {w : Int} {a : Mode} :
    0 ≤ w ∧ w % 100 = 4 ∧ ModesAt .write w 1 [a] ↔ ∃ h : Int, 0 ≤ h ∧ w = 4 + 100 * modeDigit a + h * 10 ^ 3 := by
  have ha := modeDigit_cases a
  have hkind : slotKind .write 1 = .read := rfl
  simp only [ModesAt, slotMode_read hkind, digit, and_true]
  constructor
  · rintro ⟨hw, hmod, h1⟩
    exact ⟨w / 1000, by omega, by omega⟩
  · rintro ⟨h, hh, rfl⟩
    exact ⟨by omega, by omega, by omega⟩

/-- Format F1W: the digit is a legal one that is ignored. -/
theorem read_word_iff {w : Int} {d : Mode} :
    0 ≤ w ∧ w % 100 = 3 ∧ ModesAt .read w 1 [d] ↔
      d = .positional ∧ ∃ t h : Int, (t = 0 ∨ t = 1) ∧ 0 ≤ h ∧ w = 3 + t * 100 + h * 10 ^ 3 := by
  have hkind : slotKind .read 1 = .write := rfl
  simp only [ModesAt, slotMode_write hkind, digit, and_true]
  constructor
  · rintro ⟨hw, hmod, hd, h1⟩
    exact ⟨hd, w / 100 % 10, w / 1000, by omega, by omega, by omega⟩
  · rintro ⟨hd, t, h, ht, hh, rfl⟩
    exact ⟨by omega, by omega, hd, by omega⟩

/-- Format F0: no digit but the opcode's is looked at. -/
theorem halt_word_iff {w : Int} :
    0 ≤ w ∧ w % 100 = 99 ∧ ModesAt .halt w 1 [] ↔ ∃ h : Int, 0 ≤ h ∧ w = 99 + h * 10 ^ 2 := by
  simp only [ModesAt, and_true]
  constructor
  · rintro ⟨hw, hmod⟩
    exact ⟨w / 100, by omega, by omega⟩
  · rintro ⟨h, hh, rfl⟩
    omega

/-- Without a write slot there is no digit to ignore below the ones above the slots. -/
theorem exists_ignored_digit_iff {w v n : Int} :
    (∃ t h : Int, (t = 0 ∨ t = 1) ∧ 0 ≤ h ∧ w = v + t * 0 + h * n) ↔ ∃ h : Int, 0 ≤ h ∧ w = v + h * n := by
  constructor
  · rintro ⟨t, h, _, hh, hw⟩
    exact ⟨h, hh, by rw [hw, mul_zero, add_zero]⟩
  · rintro ⟨h, hh, hw⟩
    exact ⟨0, h, Or.inl rfl, hh, by rw [hw, mul_zero, add_zero]⟩

/-- Settles O1: a word decodes by its opcode and the digits of its slots, and in each format these fix the word up to
the ignored digits. -/
theorem decodeIsCanonicalUpToIgnoredDigits : Obligations.DecodeIsCanonicalUpToIgnoredDigits := by
  intro w i
  rw [decode_eq_ok, instrOf_eq_some]
  cases i with
  | add | mul | lt | cmp =>
    exact (f3_word_iff (by simp [opcodeOf]) (by simp [opcodeNumber, opcodeOf])).trans
      (and_congr_left' decide_eq_true_iff.symm)
  | read => exact read_word_iff.trans (and_congr_left' decide_eq_true_iff.symm)
  | jnz | jz =>
    exact (f2_word_iff (by simp [opcodeOf]) (by simp [opcodeNumber, opcodeOf])).trans
      (exists_ignored_digit_iff.symm.trans (and_iff_right rfl).symm)
  | write => exact write_word_iff.trans (exists_ignored_digit_iff.symm.trans (and_iff_right rfl).symm)
  | halt => exact halt_word_iff.trans (exists_ignored_digit_iff.symm.trans (and_iff_right rfl).symm)

/-- The canonical word of a well-formed instruction decodes to it. -/
theorem decode_encode {i : Instr} (h : wellFormed i = true) : decode (encode i) = .ok i :=
  (decodeIsCanonicalUpToIgnoredDigits _ i).mpr ⟨h, 0, 0, Or.inl rfl, le_rfl, by simp⟩

end Sys2Proof

/-! The assembler: an accepted line is the canonical word and the operand numbers, slot by slot (30_encoding.md rules
R80, R82, R84). -/

namespace Sys2Proof

/-! Instructions from their modes -/

/-- An opcode and a mode for each of its slots make an instruction (rules R75, R103). -/
theorem exists_instr_of_modes {op : Opcode} {ms : List Mode} (h : ms.length = nparams op) :
    ∃ i, opcodeOf i = op ∧ modesOf i = ms := by
  cases op with
  | halt => obtain rfl := List.length_eq_zero_iff.mp h; exact ⟨.halt, rfl, rfl⟩
  | read => obtain ⟨d, rfl⟩ := List.length_eq_one_iff.mp h; exact ⟨.read d, rfl, rfl⟩
  | write => obtain ⟨a, rfl⟩ := List.length_eq_one_iff.mp h; exact ⟨.write a, rfl, rfl⟩
  | jnz => obtain ⟨a, m, rfl⟩ := List.length_eq_two.mp h; exact ⟨.jnz a m, rfl, rfl⟩
  | jz => obtain ⟨a, m, rfl⟩ := List.length_eq_two.mp h; exact ⟨.jz a m, rfl, rfl⟩
  | add => obtain ⟨a, b, d, rfl⟩ := List.length_eq_three.mp h; exact ⟨.add a b d, rfl, rfl⟩
  | mul => obtain ⟨a, b, d, rfl⟩ := List.length_eq_three.mp h; exact ⟨.mul a b d, rfl, rfl⟩
  | lt => obtain ⟨a, b, d, rfl⟩ := List.length_eq_three.mp h; exact ⟨.lt a b d, rfl, rfl⟩
  | cmp => obtain ⟨a, b, d, rfl⟩ := List.length_eq_three.mp h; exact ⟨.cmp a b d, rfl, rfl⟩

/-- An instruction whose write slots are positional is well-formed (rule R74). -/
theorem wellFormed_of_positional {i : Instr}
    (h : ∀ k m, (modesOf i)[k]? = some m → slotKind (opcodeOf i) (k + 1) = .write → m = .positional) :
    wellFormed i = true := by
  cases i with
  | add _ _ d | mul _ _ d | lt _ _ d | cmp _ _ d => exact decide_eq_true (h 2 d rfl rfl)
  | read d => exact decide_eq_true (h 0 d rfl rfl)
  | write | jnz | jz | halt => rfl

/-- The canonical word of a well-formed instruction is its opcode and the digits of its modes (rule R80). -/
theorem encode_eq_modeDigits {i : Instr} (h : wellFormed i = true) :
    encode i = opcodeNumber (opcodeOf i) + Machine.modeDigits 1 (modesOf i) := by
  cases i with
  | add a b d | mul a b d | lt a b d | cmp a b d =>
    obtain rfl : d = .positional := of_decide_eq_true h
    simp only [encode, opcodeOf, opcodeNumber, modesOf, Machine.modeDigits, modeDigit]
    ring
  | read d =>
    obtain rfl : d = .positional := of_decide_eq_true h
    rfl
  | write a | jnz a m | jz a m =>
    simp only [encode, opcodeOf, opcodeNumber, modesOf, Machine.modeDigits]
    ring
  | halt => rfl

end Sys2Proof

namespace Sys2Proof.Machine

/-! The operands of a line -/

/-- Operands that are accepted give each its own mode and number. -/
theorem asmOperands_some {table : List (Nat × Nat)} {op : Opcode} {operands : List AsmOperand}
    {xs : List (Mode × Int)} {n : Nat} (h : asmOperands table op n operands = some xs) :
    xs.length = operands.length ∧ ∀ (k : Nat) (o : AsmOperand), operands[k]? = some o →
      ∃ x, xs[k]? = some x ∧ asmOperand table (slotKind op (k + n)) o = some x := by
  induction operands generalizing xs n with
  | nil =>
    cases h
    exact ⟨rfl, nofun⟩
  | cons o os ih =>
    simp only [asmOperands, Option.pure_def, Option.bind_eq_bind, Option.bind_eq_some_iff, Option.some.injEq] at h
    obtain ⟨x, hx, ys, hys, rfl⟩ := h
    obtain ⟨hlen, hrest⟩ := ih hys
    refine ⟨by rw [List.length_cons, List.length_cons, hlen], fun k o' hk => ?_⟩
    cases k with
    | zero =>
      cases hk
      exact ⟨x, rfl, by rwa [Nat.zero_add]⟩
    | succ k =>
      obtain ⟨y, hy, hslot⟩ := hrest k o' hk
      exact ⟨y, hy, by rwa [Nat.add_assoc, Nat.add_comm 1]⟩

/-- Operands are refused exactly when one of them is. -/
theorem asmOperands_none {table : List (Nat × Nat)} {op : Opcode} {operands : List AsmOperand} {n : Nat} :
    asmOperands table op n operands = none ↔
      ∃ k o, operands[k]? = some o ∧ asmOperand table (slotKind op (k + n)) o = none := by
  induction operands generalizing n with
  | nil => exact iff_of_false nofun fun ⟨_, _, h, _⟩ => nomatch h
  | cons o os ih =>
    have hcons : asmOperands table op n (o :: os) = none ↔
        asmOperand table (slotKind op n) o = none ∨ asmOperands table op (n + 1) os = none := by
      cases h1 : asmOperand table (slotKind op n) o <;> cases h2 : asmOperands table op (n + 1) os <;>
        simp [asmOperands, h1, h2]
    rw [hcons, ih]
    constructor
    · rintro (h | ⟨k, o', hk, h⟩)
      · exact ⟨0, o, rfl, by rwa [Nat.zero_add]⟩
      · exact ⟨k + 1, o', hk, by rwa [Nat.add_assoc, Nat.add_comm 1]⟩
    · rintro ⟨k, o', hk, h⟩
      cases k with
      | zero =>
        cases hk
        exact Or.inl (by rwa [Nat.zero_add] at h)
      | succ k => exact Or.inr ⟨k, o', hk, by rwa [Nat.add_assoc, Nat.add_comm 1] at h⟩

/-- An accepted line of an opcode has an operand for each slot, and its words are the word of their modes and their
numbers. -/
theorem asmLine_some {table : List (Nat × Nat)} {op : Opcode} {operands : List AsmOperand} {ws : List Int}
    (h : asmLine table (.instr op operands) = some ws) :
    operands.length = nparams op ∧ ∃ xs, asmOperands table op 1 operands = some xs ∧
      ws = (opcodeNumber op + modeDigits 1 (xs.map Prod.fst)) :: xs.map Prod.snd := by
  simp only [asmLine, expandPseudo] at h
  split at h
  · next hlen =>
    simp only [Option.pure_def, Option.bind_eq_bind, Option.bind_eq_some_iff, Option.some.injEq] at h
    obtain ⟨xs, hxs, rfl⟩ := h
    exact ⟨hlen, xs, hxs, rfl⟩
  · cases h

/-- A line of an opcode is refused exactly when the number of its operands is wrong or its operands are refused. -/
theorem asmLine_none {table : List (Nat × Nat)} {op : Opcode} {operands : List AsmOperand} :
    asmLine table (.instr op operands) = none ↔
      operands.length ≠ nparams op ∨ asmOperands table op 1 operands = none := by
  by_cases hlen : operands.length = nparams op
  · cases h : asmOperands table op 1 operands <;> simp [asmLine, expandPseudo, hlen, h]
  · simp [asmLine, expandPseudo, hlen]

/-- Accepted operands, one for each slot, have the modes of a well-formed instruction. -/
theorem exists_instr_of_asmOperands {table : List (Nat × Nat)} {op : Opcode} {operands : List AsmOperand}
    {xs : List (Mode × Int)} (hlen : operands.length = nparams op) (h : asmOperands table op 1 operands = some xs) :
    ∃ i, wellFormed i = true ∧ opcodeOf i = op ∧ modesOf i = xs.map Prod.fst := by
  obtain ⟨hlen_xs, hslots⟩ := asmOperands_some h
  obtain ⟨i, rfl, hmodes⟩ := exists_instr_of_modes (op := op) (ms := xs.map Prod.fst)
    (by rw [List.length_map, hlen_xs, hlen])
  refine ⟨i, wellFormed_of_positional fun k m hm hkind => ?_, rfl, hmodes⟩
  rw [hmodes] at hm
  have hk : k < operands.length := by
    simpa only [List.length_map, hlen_xs] using (List.getElem?_eq_some_iff.mp hm).1
  obtain ⟨⟨m', v⟩, hx, hslot⟩ := hslots k _ (List.getElem?_eq_getElem hk)
  rw [List.getElem?_map, hx] at hm
  cases hm
  exact (asmOperand_some hslot).2 hkind

/-- Operands are refused exactly for `#n` in a write-target slot and for a label that is not bound. -/
theorem asmOperands_none_iff {table : List (Nat × Nat)} {op : Opcode} {operands : List AsmOperand} :
    asmOperands table op 1 operands = none ↔
      ∃ (k : Nat) (n : AsmNumber),
        (operands[k]? = some (.imm n) ∧ slotKind op (k + 1) = .write) ∨
        ((operands[k]? = some (.at n) ∨ operands[k]? = some (.imm n)) ∧ asmNumber table n = none) := by
  rw [asmOperands_none]
  constructor
  · rintro ⟨k, o, hk, ho⟩
    obtain ⟨n, ⟨rfl, hkind⟩ | ⟨rfl | rfl, hn⟩⟩ := asmOperand_none.mp ho
    · exact ⟨k, n, Or.inl ⟨hk, hkind⟩⟩
    · exact ⟨k, n, Or.inr ⟨Or.inl hk, hn⟩⟩
    · exact ⟨k, n, Or.inr ⟨Or.inr hk, hn⟩⟩
  · rintro ⟨k, n, ⟨hk, hkind⟩ | ⟨hk | hk, hn⟩⟩
    · exact ⟨k, _, hk, asmOperand_none.mpr ⟨n, Or.inl ⟨rfl, hkind⟩⟩⟩
    · exact ⟨k, _, hk, asmOperand_none.mpr ⟨n, Or.inr ⟨Or.inl rfl, hn⟩⟩⟩
    · exact ⟨k, _, hk, asmOperand_none.mpr ⟨n, Or.inr ⟨Or.inr rfl, hn⟩⟩⟩

/-! The statements -/

/-- Settles O4: the modes of the accepted operands make a well-formed instruction, whose canonical word the line gives;
and a line is refused with one of its operands. -/
theorem assemblerEmitsCanonicalWords : Obligations.AssemblerEmitsCanonicalWords := by
  intro table op operands
  refine ⟨fun ws h => ?_, asmLine_none.trans (or_congr_right asmOperands_none_iff)⟩
  obtain ⟨hlen, xs, hxs, rfl⟩ := asmLine_some h
  obtain ⟨hlen_xs, hslots⟩ := asmOperands_some hxs
  obtain ⟨i, hwf, rfl, hmodes⟩ := exists_instr_of_asmOperands hlen hxs
  refine ⟨i, xs.map Prod.snd, hwf, rfl, ?_, by rw [List.length_map, hlen_xs, hlen], decode_encode hwf,
    fun k o hk => ?_⟩
  · rw [encodeWords, encode_eq_modeDigits hwf, hmodes]
  · obtain ⟨x, hx, hslot⟩ := hslots k o hk
    exact ⟨x.1, x.2, by rw [hmodes, List.getElem?_map, hx]; rfl, by rw [List.getElem?_map, hx]; rfl,
      (asmOperand_some hslot).1⟩

/-- Settles O3, by evaluating the assembler and the decoder on the nine lines. -/
theorem encodingExamplesOfTheSpec : Obligations.EncodingExamplesOfTheSpec := by
  unfold Obligations.EncodingExamplesOfTheSpec
  decide

end Sys2Proof.Machine

/-! The invariant `StateOk`: at reset, and kept by every step, every event and every attaching (10_state.md parts 2 to
7, 60_exceptions.md part 3). -/

namespace Sys2Proof.Machine

/-! What is a Word in a state that meets it -/

/-- MEM_CAPACITY leaves room for a longest instruction at the last index, so a short way past a valid index is a Word
(rules R10, R26). -/
theorem inWord_of_valid_add {s : State} {a : Int} {n : Nat} (h : StateOk s) (ha : Valid s a) (hn : n ≤ 4) :
    inWord s.cfg (a + n) = true := by
  obtain ⟨hlow, hhigh⟩ := ha
  have hbound := h.memBound
  exact inWord_mono (inWord_zero s.cfg) h.config (by omega) (by omega)

/-- The target of a write slot is a valid index. -/
theorem WritesTo.valid {s : State} {k : Nat} {t : Int} (h : WritesTo s k t) : Valid s t :=
  h.2.2

/-- The index that a slot's fault records is a Word. -/
theorem slotFaults_ok {s : State} {k : Nat} {kind : SlotKind} {m : Mode} {value : Int} {detail : BitVec 3}
    (h : StateOk s) (hpc : Valid s s.pc) (hk : k ≤ 4) (hf : SlotFaults s k kind m value detail) :
    inWord s.cfg value = true := by
  rcases hf with ⟨_, rfl, _⟩ | ⟨_, rfl, _⟩
  · exact inWord_of_valid_add h hpc hk
  · exact wordAt_ok h _

/-- What a fault of a decoded instruction records is a Word. -/
theorem Raises.faultWord_ok {i : Instr} {s : State} {f : CoreFault} (hr : Raises i s f) (h : StateOk s)
    (hpc : Valid s s.pc) : inWord s.cfg (faultWord f) = true := by
  cases hr with
  | slot k kind m hk cause faults => exact slotFaults_ok h hpc (by omega) faults
  | overflow v hop hv => exact inWord_zero s.cfg
  | exhausted hop => exact inWord_zero s.cfg

/-! Every step keeps it -/

/-- A retirement keeps the invariant: everything an instruction resolves is a Word, and so is the next pc. -/
theorem Retires.keeps_ok {s : State} {i : Instr} {e : Effect} (he : Retires s i e) (h : StateOk s)
    (hrun : s.runState = .running) (hpc : Valid s s.pc) : StateOk (retire e s) := by
  have hadvance : ∀ op, inWord s.cfg (s.pc + instrLength op) = true := fun op =>
    inWord_of_valid_add h hpc (by cases op <;> decide)
  cases he with
  | store i op a b p x q y t v hop hf3 h1 h2 h3 hv =>
    have hx := readsAs_ok h h1
    have hy := readsAs_ok h h2
    have ht := writesTo_ok h h3
    refine retire_ok h hrun ?_ nofun ?_ ?_
    · rintro _ _ ⟨⟩; exact ⟨h3.valid, hv⟩
    · simp [hx, hy, ht]
    · rcases hf3 with rfl | rfl | rfl | rfl <;> exact hadvance _
  | read d t x rest ht hq =>
    have hx : inWord s.cfg x = true := h.inputWords x (by simp [hq])
    refine retire_ok h hrun ?_ nofun ?_ (hadvance .read)
    · rintro _ _ ⟨⟩; exact ⟨ht.valid, hx⟩
    · simp [writesTo_ok h ht]
  | write a p x h1 =>
    have hx := readsAs_ok h h1
    refine retire_ok h hrun nofun ?_ ?_ (hadvance .write)
    · rintro _ ⟨⟩; exact hx.2
    · simp [hx]
  | jump i op a m p x q t takes hop hf2 h1 h2 =>
    have hx := readsAs_ok h h1
    have ht := readsAs_ok h h2
    refine retire_ok h hrun nofun nofun ?_ ?_
    · simp [hx, ht]
    · cases takes <;> rcases hf2 with rfl | rfl
      · exact hadvance .jnz
      · exact hadvance .jz
      · exact ht.2
      · exact ht.2
  | halt => exact retire_ok h hrun nofun nofun nofun h.pcWord

/-- Settles O29, by what a step can do: it retires, takes a fault whose value is a Word, or holds. -/
theorem stepKeepsTheInvariant : Obligations.StepKeepsTheInvariant := by
  intro s t h hstep
  rcases step_cases hstep with ⟨i, e, ⟨hr, hpc, _⟩, he, rfl⟩ | ⟨f, rfl, hf⟩ | ⟨_, _, _, _, _, _, rfl⟩
  · exact he.keeps_ok h hr hpc
  · refine takeFault_ok h ?_
    rcases hf with ⟨i, ⟨_, hpc, _⟩, hraises⟩ | ⟨rfl, _⟩ | ⟨_, rfl | rfl⟩
    · exact hraises.faultWord_ok h hpc
    · exact h.pcWord
    · exact wordAt_ok h _
    · exact wordAt_ok h _
  · exact h

/-- Settles O40: the way past a valid pc is at most the length of a longest instruction. -/
theorem sequentialAdvanceIsAWord : Obligations.SequentialAdvanceIsAWord := fun _ _ h hpc _ hn =>
  inWord_of_valid_add h hpc hn

/-! Reset -/

/-- A machine with legal parameters meets the invariant right after reset: its registers and its memory hold 0. -/
theorem resetWith_ok {c : Config} (hc : configOk c = true) : StateOk (State.resetWith c) where
  config := hc
  memForm := rfl
  memValid := nofun
  memWords := nofun
  memBound := Nat.zero_le _
  pcWord := inWord_zero c
  faultPcWord := inWord_zero c
  faultValueWord := inWord_zero c
  faultCodes := rfl
  faultHalted := fun hne => absurd rfl hne
  faultAtPc := fun hne => absurd rfl hne
  noFault := fun _ => ⟨rfl, rfl⟩
  inputWords := nofun
  outputWords := nofun
  traceWords := nofun

/-- Settles O31; the default parameters are legal. -/
theorem resetMeetsTheInvariant : Obligations.ResetMeetsTheInvariant :=
  ⟨resetWith_ok (by decide), fun _ => resetWith_ok⟩

/-! The events of the host and the environment -/

/-- The channels of a state may be replaced by channels of Words. -/
theorem StateOk.with_channels {s : State} (h : StateOk s) {queue out : List Int} {trace : List TraceRecord}
    (closed : Bool) (hqueue : ∀ v ∈ queue, inWord s.cfg v = true) (hout : ∀ v ∈ out, inWord s.cfg v = true)
    (htrace : ∀ r ∈ trace, recordOk s.cfg r) :
    StateOk { s with inQueue := queue, inClosed := closed, outSeq := out, traceSeq := trace } :=
  { h with inputWords := hqueue, outputWords := hout, traceWords := htrace }

/-- The memory of a state may be replaced by a canonical one of Words at valid indices. -/
theorem StateOk.with_memory {s : State} (h : StateOk s) {m : Memory} {len : Nat} (hform : m.wf = true)
    (hvalid : ∀ e ∈ m, e.1 < len) (hwords : ∀ e ∈ m, inWord s.cfg e.2 = true) (hlen : len ≤ s.cfg.memCapacity) :
    StateOk { s with mem := m, memLen := len } :=
  { h with memForm := hform, memValid := hvalid, memWords := hwords, memBound := hlen }

/-- Writing a Word at a valid index keeps the invariant. -/
theorem memWrite_ok {s : State} {a v : Int} (h : StateOk s) (ha : Valid s a) (hv : inWord s.cfg v = true) :
    StateOk (memWrite a v s) := by
  obtain ⟨hlow, hhigh⟩ := ha
  refine h.with_memory (Memory.wf_write _ _ h.memForm) (fun e he => ?_) (fun e he => ?_) h.memBound
  · rcases Memory.mem_write he with rfl | he
    · show a.toNat < s.memLen; omega
    · exact h.memValid e he
  · rcases Memory.mem_write he with rfl | he
    · exact hv
    · exact h.memWords e he

/-- A load keeps the invariant, whatever it answers. -/
theorem hostMove_load_ok (seq : List Int) {s : State} (h : StateOk s) : StateOk (hostMove (.load seq) s).2 := by
  rcases hostMove_load_cases seq s with ⟨_, hlen, hw, heq⟩ | ⟨_, heq⟩ | ⟨_, heq⟩ <;> rw [heq]
  · refine h.with_memory (Memory.wf_ofListFrom 0 seq) (fun e he => ?_) (fun e he => ?_) hlen
    · simpa only [Nat.zero_add] using (Memory.mem_ofListFrom he).1
    · exact hw _ (Memory.mem_ofListFrom he).2
  · exact h.with_memory rfl nofun nofun (Nat.zero_le _)
  · exact h

/-- A patch writes a Word at a valid index, or leaves the state. -/
theorem hostMove_patch_cases (a v : Int) (s : State) :
    (s.runState = .idle ∧ Valid s a ∧ inWord s.cfg v = true ∧ hostMove (.patch a v) s = (.ok, memWrite a v s)) ∨
      (hostMove (.patch a v) s).2 = s := by
  by_cases hi : s.runState = .idle
  · by_cases hv : inWord s.cfg v = true
    · by_cases ha : Valid s a
      · exact Or.inl ⟨hi, ha, hv, by rw [hostMove_patch_idle a hi hv, if_pos ha]⟩
      · exact Or.inr (by rw [hostMove_patch_idle a hi hv, if_neg ha])
    · exact Or.inr (by simp only [hostMove, hostPatch, hi, if_neg hv])
  · exact Or.inr (by rw [hostMove_patch_refused a v hi])

/-- In IDLE a start enters at index 0 with the fault registers cleared (rule R44). -/
theorem hostMove_start_idle {s : State} (h : s.runState = .idle) :
    hostMove .start s = (.ok, { s with
      pc := 0, faultCause := 0, faultPc := 0, faultValue := 0, faultDetail := 0, runState := .running }) := by
  simp only [hostMove, hostStart, h]

/-- A start keeps the invariant, whatever it answers. -/
theorem hostMove_start_ok {s : State} (h : StateOk s) : StateOk (hostMove .start s).2 := by
  by_cases hi : s.runState = .idle
  · rw [hostMove_start_idle hi]
    exact { h with
      pcWord := inWord_zero s.cfg
      faultPcWord := inWord_zero s.cfg
      faultValueWord := inWord_zero s.cfg
      faultCodes := rfl
      faultHalted := fun hne => absurd rfl hne
      faultAtPc := fun hne => absurd rfl hne
      noFault := fun _ => ⟨rfl, rfl⟩ }
  · rw [hostMove_start_refused hi]; exact h

/-- A supply to a closed source, and of an integer that is no Word, is refused. -/
theorem hostMove_supply_refused {s : State} {v : Int} (h : s.inClosed = true ∨ inWord s.cfg v = false) :
    hostMove (.supply v) s = (.refused, s) := by
  rcases h with hc | hv
  · simp only [hostMove, hostSupply, hc, Bool.not_true, Bool.false_and, Bool.false_eq_true, if_false]
  · simp only [hostMove, hostSupply, hv, Bool.and_false, Bool.false_eq_true, if_false]

/-- The two answers of a supply: it appends a Word, or is refused. -/
theorem hostMove_supply_cases (v : Int) (s : State) :
    (s.inClosed = false ∧ inWord s.cfg v = true ∧
      hostMove (.supply v) s = (.ok, { s with inQueue := s.inQueue ++ [v] })) ∨
    hostMove (.supply v) s = (.refused, s) := by
  by_cases hno : s.inClosed = true ∨ inWord s.cfg v = false
  · exact Or.inr (hostMove_supply_refused hno)
  · obtain ⟨hc, hv⟩ := not_or.mp hno
    have hopen := Bool.eq_false_of_not_eq_true hc
    have hword := Bool.eq_true_of_not_eq_false hv
    exact Or.inl ⟨hopen, hword, hostMove_supply_open hopen hword⟩

/-- A supply keeps the invariant, whatever it answers. -/
theorem hostMove_supply_ok (v : Int) {s : State} (h : StateOk s) : StateOk (hostMove (.supply v) s).2 := by
  rcases hostMove_supply_cases v s with ⟨_, hv, heq⟩ | heq <;> rw [heq]
  · refine h.with_channels s.inClosed (fun u hu => ?_) h.outputWords h.traceWords
    rcases List.mem_append.mp hu with hu | hu
    · exact h.inputWords u hu
    · rwa [List.mem_singleton.mp hu]
  · exact h

/-- Settles O30, event by event; a reset keeps the channels of a new machine's state. -/
theorem hostEventsKeepTheInvariant : Obligations.HostEventsKeepTheInvariant := by
  intro s e h
  cases e with
  | load seq => exact hostMove_load_ok seq h
  | patch a v =>
    rcases hostMove_patch_cases a v s with ⟨_, ha, hv, heq⟩ | heq <;> rw [heq]
    · exact memWrite_ok h ha hv
    · exact h
  | peek a => rw [hostMove_peek_state]; exact h
  | start => exact hostMove_start_ok h
  | reset => exact (resetWith_ok h.config).with_channels s.inClosed h.inputWords h.outputWords h.traceWords
  | status => exact h
  | supply v => exact hostMove_supply_ok v h
  | close => exact h.with_channels true h.inputWords h.outputWords h.traceWords

/-! Attaching a collaborator (rules R230, R232 step 4) -/

/-- In IDLE a source of Words replaces the input channel. -/
theorem attach_source {s : State} {queue : List Int} (closed : Bool) (hi : s.runState = .idle)
    (hq : ∀ v ∈ queue, inWord s.cfg v = true) :
    Machine.attach (.source queue closed) s = { s with inQueue := queue, inClosed := closed } := by
  simp only [Machine.attach, hi, if_pos (List.all_eq_true.mpr hq)]

/-- A source whose queue holds an integer that is no Word is not attached. -/
theorem attach_source_refused {s : State} {queue : List Int} (closed : Bool)
    (hq : ∃ v ∈ queue, inWord s.cfg v = false) : Machine.attach (.source queue closed) s = s := by
  obtain ⟨v, hv, hno⟩ := hq
  rcases attach_cases (.source queue closed) s with h | ⟨_, ⟨_, _, hsource, hw, _⟩ | ⟨hsink, _⟩ | ⟨hlogger, _⟩⟩
  · exact h
  · cases hsource
    exact absurd ((hw v hv).symm.trans hno) (by decide)
  · cases hsink
  · cases hlogger

/-- In IDLE a new sink has received nothing. -/
theorem attach_sink {s : State} (hi : s.runState = .idle) : Machine.attach .sink s = { s with outSeq := [] } := by
  simp only [Machine.attach, hi]

/-- In IDLE a new logger has received nothing. -/
theorem attach_logger {s : State} (hi : s.runState = .idle) :
    Machine.attach .logger s = { s with traceSeq := [] } := by
  simp only [Machine.attach, hi]

/-- Attaching keeps the invariant. -/
theorem attach_ok (c : Collaborator) {s : State} (h : StateOk s) : StateOk (Machine.attach c s) := by
  rcases attach_cases c s with heq | ⟨_, ⟨queue, closed, _, hw, heq⟩ | ⟨_, heq⟩ | ⟨_, heq⟩⟩ <;> rw [heq]
  · exact h
  · exact h.with_channels closed hw h.outputWords h.traceWords
  · exact h.with_channels s.inClosed h.inputWords nofun h.traceWords
  · exact h.with_channels s.inClosed h.inputWords h.outputWords nofun

/-- Settles O53, from what attaching each collaborator does in IDLE, and that it does nothing elsewhere. -/
theorem attachReplacesOneCollaborator : Obligations.AttachReplacesOneCollaborator :=
  ⟨fun _ _ closed hi => ⟨attach_source closed hi, attach_source_refused closed, attach_sink hi, attach_logger hi⟩,
    fun _ c => attach_of_ne_idle c, fun _ c => attach_ok c⟩

end Sys2Proof.Machine

/-! Determinism: a step reads the parameters, memory, its length, pc, run_state and the input channel, and nothing else
(40_step_pipeline.md rule R112). -/

namespace Sys2Proof.Machine

/-- Two states with the same core differ in the fault registers, the output and the trace alone. -/
theorem SameCore.eq_with {s s' : State} (h : SameCore s s') :
    s' = { s with
      faultCause := s'.faultCause, faultPc := s'.faultPc, faultValue := s'.faultValue, faultDetail := s'.faultDetail
      outSeq := s'.outSeq, traceSeq := s'.traceSeq } := by
  obtain ⟨hcfg, hmem, hlen, hpc, hrun, hqueue, hclosed⟩ := h
  rw [hcfg, hmem, hlen, hpc, hrun, hqueue, hclosed]

/-- Fetch and decoding read the core alone. -/
theorem fetchDecode_eq_of_sameCore {s s' : State} (h : SameCore s s') : fetchDecode s' = fetchDecode s := by
  rw [h.eq_with]; rfl

/-- The verdict on an instruction is found in the core alone: only its commit looks at the rest of the state. -/
theorem exec_eq_commit_of_sameCore (i : Instr) {s s' : State} (h : SameCore s s') :
    ∃ v, exec i s = commit v s ∧ exec i s' = commit v s' := by
  rw [h.eq_with]
  cases i with
  | add | mul | read | write | jnz | jz | lt | cmp => exact ⟨_, rfl, rfl⟩
  | halt => exact ⟨.retire { op := .halt, slots := [] }, rfl, rfl⟩

/-- A RUNNING step commits a verdict that is found in the core alone. -/
theorem step_eq_commit_of_sameCore {s s' : State} (h : SameCore s s') (hrun : s.runState = .running) :
    ∃ v, step s = commit v s ∧ step s' = commit v s' := by
  have hrun' : s'.runState = .running := by rw [h.eq_with]; exact hrun
  simp only [step, hrun, hrun', fetchDecode_eq_of_sameCore h]
  cases fetchDecode s with
  | error f => exact ⟨.raise f, rfl, rfl⟩
  | ok i => exact exec_eq_commit_of_sameCore i h

/-- Retirement appends the output of its effect. -/
theorem retire_outSeq (e : Effect) (s : State) : (retire e s).outSeq = s.outSeq ++ e.out.toList := by
  rw [retire_eq]
  cases e.out with
  | none => exact (List.append_nil _).symm
  | some v => rfl

/-- Retiring the same effect keeps two cores the same. -/
theorem retire_sameCore {s s' : State} (e : Effect) (h : SameCore s s') : SameCore (retire e s) (retire e s') := by
  rw [h.eq_with, retire_eq, retire_eq]
  exact ⟨rfl, rfl, rfl, rfl, rfl, rfl, rfl⟩

/-- Taking the same fault keeps two cores the same. -/
theorem takeFault_sameCore {s s' : State} (f : CoreFault) (h : SameCore s s') :
    SameCore (takeFault f s) (takeFault f s') := by
  rw [h.eq_with]
  exact ⟨rfl, rfl, rfl, rfl, rfl, rfl, rfl⟩

/-- Settles O33: both states commit the same verdict, and each verdict does the same to both. -/
theorem stepIsDeterminedByTheCoreState : Obligations.StepIsDeterminedByTheCoreState := by
  intro s s' t h hstep
  obtain ⟨v, hs, hs'⟩ := step_eq_commit_of_sameCore h (running_of_step hstep)
  rw [hs] at hstep
  cases v with
  | retire e =>
    cases hstep
    exact ⟨retire e s', hs', retire_sameCore e h, ⟨e.out.toList, retire_outSeq e s, retire_outSeq e s'⟩,
      Or.inr ⟨retire_faultCause e s, retire_faultCause e s'⟩⟩
  | hold =>
    cases hstep
    exact ⟨s', hs', h, ⟨[], (List.append_nil _).symm, (List.append_nil _).symm⟩, Or.inr ⟨rfl, rfl⟩⟩
  | raise f =>
    cases hstep
    exact ⟨takeFault f s', hs', takeFault_sameCore f h, ⟨[], (List.append_nil _).symm, (List.append_nil _).symm⟩,
      Or.inl ⟨_, _, _, takeFault_eq f s, takeFault_eq f s'⟩⟩

end Sys2Proof.Machine

/-! What each instruction does when its slots resolve (40_step_pipeline.md rules R108, R109; 41_arithmetic.md,
42_io.md, 43_control.md, 44_compare.md), and that a stored Word is the one executed next (20_memory.md rules R59,
R63). -/

namespace Sys2Proof.Machine

/-! The formats -/

/-- Format F3 whose operation has the result `v` writes it, advances pc by its length and leaves one record. -/
theorem execF3_next {op : Opcode} {a b : Mode} {r : Int → Int → Except CoreFault Int} {s : State} {p x q y t v : Int}
    (hop : op = .add ∨ op = .mul ∨ op = .lt ∨ op = .cmp) (h1 : ReadsAs s 1 a p x) (h2 : ReadsAs s 2 b q y)
    (h3 : WritesTo s 3 t) (hr : r x y = .ok v) :
    execF3 op a b r s = .next { s with
      mem := s.mem.write t.toNat v
      pc := s.pc + 4
      traceSeq := tracedBy s op [p, q, t] [x, y, t] } := by
  simp only [execF3_resolved r h1 h2 h3, hr, retire_eq]
  rcases hop with rfl | rfl | rfl | rfl <;> rfl

/-- A jump whose slots resolve goes to its target or advances by its length. -/
theorem execF2_next {op : Opcode} {a m : Mode} {takes : Int → Bool} {s : State} {p x q t : Int}
    (hop : op = .jnz ∨ op = .jz) (h1 : ReadsAs s 1 a p x) (h2 : ReadsAs s 2 m q t) :
    execF2 op a m takes s = .next { s with
      pc := if takes x then t else s.pc + 3
      traceSeq := tracedBy s op [p, q] [x, t] } := by
  rw [execF2_resolved takes h1 h2, retire_eq]
  cases takes x <;> rcases hop with rfl | rfl <;> rfl

/-! The instructions -/

/-- Settles O9: ADD is format F3 with a checked sum. -/
theorem addWritesTheSum : Obligations.AddWritesTheSum := by
  intro s a b d p x q y t h1 h2 h3 hv
  exact execF3_next (op := .add) (r := fun x y => checked s.cfg (x + y)) (by decide) h1 h2 h3 (checked_of_inWord hv)

/-- Settles O10: MUL is format F3 with a checked product. -/
theorem mulWritesTheProduct : Obligations.MulWritesTheProduct := by
  intro s a b d p x q y t h1 h2 h3 hv
  exact execF3_next (op := .mul) (r := fun x y => checked s.cfg (x * y)) (by decide) h1 h2 h3 (checked_of_inWord hv)

/-- The Word of a comparison is 1 or 0 by its truth (rule R172). -/
theorem truthWord_decide (P : Prop) [Decidable P] : truthWord (decide P) = if P then 1 else 0 := by
  simp only [truthWord, decide_eq_true_eq]

/-- Settles O11: LT is format F3 with the truth of the signed comparison. -/
theorem ltWritesTheComparison : Obligations.LtWritesTheComparison := by
  intro s a b d p x q y t h1 h2 h3
  exact execF3_next (op := .lt) (r := fun x y => .ok (lessWord x y)) (by decide) h1 h2 h3
    (congrArg Except.ok (truthWord_decide (x < y)))

/-- Settles O12: CMP is format F3 with the truth of the equality. -/
theorem cmpWritesTheEquality : Obligations.CmpWritesTheEquality := by
  intro s a b d p x q y t h1 h2 h3
  exact execF3_next (op := .cmp) (r := fun x y => .ok (equalWord x y)) (by decide) h1 h2 h3
    (congrArg Except.ok (truthWord_decide (x = y)))

/-- Settles O13: with input available, a READ whose target resolves retires. -/
theorem readStoresTheNextInput : Obligations.ReadStoresTheNextInput := fun _ d _ _ _ ht hq =>
  exec_read_of_available d ht hq

/-- Settles O14: WRITE retires with its operand as the output, and no write. -/
theorem writeEmitsItsOperand : Obligations.WriteEmitsItsOperand := by
  intro s a p x h
  show execWrite a s = _
  rw [execWrite_resolved h, retire_eq]
  rfl

/-- Settles O15: JNZ is a jump that is taken on a non-zero operand. -/
theorem jnzJumpsOnNonZero : Obligations.JnzJumpsOnNonZero := by
  intro s a m p x q t h1 h2
  show execF2 .jnz a m nonZero s = _
  rw [execF2_next (Or.inl rfl) h1 h2]
  simp only [nonZero, decide_eq_true_eq]

/-- Settles O16: JZ is a jump that is taken on a zero operand. -/
theorem jzJumpsOnZero : Obligations.JzJumpsOnZero := by
  intro s a m p x q t h1 h2
  show execF2 .jz a m isZero s = _
  rw [execF2_next (Or.inr rfl) h1 h2]
  simp only [isZero, decide_eq_true_eq]

/-! What is read back after a store -/

/-- A Word stored at an index is the Word there. -/
theorem wordAt_of_stored {s t : State} {a v : Int} (hwf : s.mem.wf = true) (hmem : t.mem = s.mem.write a.toNat v) :
    wordAt t a = v := by
  simp only [wordAt, hmem, Memory.read_write _ _ _ hwf, if_true]

/-- Settles O24: 101 is the word of ADD with these modes, its slots resolve to these values, and its target is read
back after the store. -/
theorem addImmediateWithPositional : Obligations.AddImmediateWithPositional := by
  intro s hwf hr hpc hword hpc3 hoperand htarget hv
  have hrun : RunsNext s (.add .immediate .positional .positional) := ⟨hr, hpc, by rw [hword]; decide⟩
  have hparam : ∀ k : Nat, k ≤ 3 → Valid s (s.pc + k) := fun k hk => by
    obtain ⟨hlow, _⟩ := hpc
    obtain ⟨_, hhigh⟩ := hpc3
    exact ⟨by omega, by omega⟩
  have h1 : ReadsAs s 1 .immediate (wordAt s (s.pc + 1)) (wordAt s (s.pc + 1)) :=
    ⟨hparam 1 (by decide), rfl, rfl⟩
  have h2 : ReadsAs s 2 .positional (wordAt s (s.pc + 2)) (wordAt s (wordAt s (s.pc + 2))) :=
    ⟨hparam 2 (by decide), rfl, hoperand, rfl⟩
  have h3 : WritesTo s 3 (wordAt s (s.pc + 3)) := ⟨hpc3, rfl, htarget⟩
  exact ⟨_, (step_of_runsNext hrun).trans (addWritesTheSum s _ _ _ _ _ _ _ _ h1 h2 h3 hv), rfl, hr,
    wordAt_of_stored hwf rfl⟩

/-- A RUNNING state whose pc is the index just stored to executes the stored Word. -/
theorem step_of_stored {s t : State} {v : Int} {i : Instr} (hwf : s.mem.wf = true)
    (hmem : t.mem = s.mem.write t.pc.toNat v) (hr : t.runState = .running) (hpc : Valid t t.pc)
    (hd : decode v = .ok i) : step t = exec i t :=
  step_of_runsNext ⟨hr, hpc, by rw [wordAt_of_stored hwf hmem, hd]⟩

/-- Settles O25: each storing instruction answers a state whose pc is the index of the store. -/
theorem storedWordIsExecutedNext : Obligations.StoredWordIsExecutedNext := by
  intro s d i hwf hr
  refine ⟨fun a b p x q y h1 h2 h3 => ⟨fun hv hd => ?_, fun hv hd => ?_, fun hd => ?_, fun hd => ?_⟩,
    fun x rest ht hq hd => ?_⟩
  · exact ⟨_, addWritesTheSum s a b d p x q y _ h1 h2 h3 hv, step_of_stored hwf rfl hr h3.valid hd⟩
  · exact ⟨_, mulWritesTheProduct s a b d p x q y _ h1 h2 h3 hv, step_of_stored hwf rfl hr h3.valid hd⟩
  · exact ⟨_, ltWritesTheComparison s a b d p x q y _ h1 h2 h3, step_of_stored hwf rfl hr h3.valid hd⟩
  · exact ⟨_, cmpWritesTheEquality s a b d p x q y _ h1 h2 h3, step_of_stored hwf rfl hr h3.valid hd⟩
  · exact ⟨_, readStoresTheNextInput s d _ x rest ht hq, step_of_stored hwf rfl hr ht.valid hd⟩

end Sys2Proof.Machine

/-! Frames: what an instruction and a step of the core leave, and who writes the fault registers and the output
(40_step_pipeline.md rules R109, R110; 10_state.md rule R32; 42_io.md rule R145). -/

namespace Sys2Proof.Machine

/-- `t` holds the same fault registers as `s`. -/
def FaultRegistersKept (s t : State) : Prop :=
  t.faultCause = s.faultCause ∧ t.faultPc = s.faultPc ∧ t.faultValue = s.faultValue ∧ t.faultDetail = s.faultDetail

/-! What a retirement leaves -/

/-- Retirement writes no fault register. -/
theorem retire_faultRegistersKept (e : Effect) (s : State) : FaultRegistersKept s (retire e s) := by
  rw [retire_eq]; exact ⟨rfl, rfl, rfl, rfl⟩

/-- Retirement leaves the closed flag. -/
@[simp] theorem retire_inClosed (e : Effect) (s : State) : (retire e s).inClosed = s.inClosed := by rw [retire_eq]

/-- The slots that name an index to write (rule R104). -/
theorem slotKind_eq_write {op : Opcode} {k : Nat} :
    slotKind op k = .write ↔ ((op = .add ∨ op = .mul ∨ op = .lt ∨ op = .cmp) ∧ k = 3) ∨ (op = .read ∧ k = 1) := by
  constructor
  · intro h
    unfold slotKind at h
    split at h <;> simp at h ⊢
  · rintro (⟨rfl | rfl | rfl | rfl, rfl⟩ | ⟨rfl, rfl⟩) <;> rfl

/-- A retirement writes at most the valid index that a write slot of the instruction names. -/
theorem Retires.writesTo {s : State} {i : Instr} {e : Effect} {u v : Int} (h : Retires s i e)
    (he : e.write = some (u, v)) : ∃ k, slotKind (opcodeOf i) k = .write ∧ WritesTo s k u := by
  cases h with
  | store i op a b p x q y t v hop hf3 h1 h2 h3 hv =>
    cases he
    exact ⟨3, slotKind_eq_write.mpr (Or.inl ⟨hop ▸ hf3, rfl⟩), h3⟩
  | read d t x rest ht hq =>
    cases he
    exact ⟨1, rfl, ht⟩
  | write | jump | halt => cases he

/-- A retirement leaves every Word that no write slot of the instruction names. -/
theorem Retires.read_other {s : State} {i : Instr} {e : Effect} (h : Retires s i e) {a : Nat}
    (ha : ∀ k : Nat, slotKind (opcodeOf i) k = .write → (a : Int) ≠ wordAt s (s.pc + k)) :
    (retire e s).mem.read a = s.mem.read a := by
  rw [retire_eq]
  cases hw : e.write with
  | none => rfl
  | some target =>
    obtain ⟨k, hkind, _, hword, hvalid⟩ := h.writesTo hw
    have hne : a ≠ target.1.toNat := fun heq => ha k hkind (by
      rw [hword, heq]
      exact Int.toNat_of_nonneg hvalid.1)
    exact Memory.read_write_other _ _ hne

/-- Only WRITE emits, and it emits its operand. -/
theorem Retires.of_out {s : State} {i : Instr} {e : Effect} {v : Int} (h : Retires s i e) (he : e.out = some v) :
    ∃ a p, i = .write a ∧ ReadsAs s 1 a p v := by
  cases h with
  | write a p x h1 =>
    cases he
    exact ⟨a, p, rfl, h1⟩
  | store | read | jump | halt => cases he

/-! What an execution leaves -/

/-- Every Word that no write slot of the instruction names. -/
theorem exec_read_other {i : Instr} {s t : State} (h : exec i s = .next t) {a : Nat}
    (ha : ∀ k : Nat, slotKind (opcodeOf i) k = .write → (a : Int) ≠ wordAt s (s.pc + k)) :
    t.mem.read a = s.mem.read a := by
  rcases exec_next h with ⟨e, he, rfl⟩ | ⟨f, _, rfl⟩ | ⟨_, _, _, _, rfl⟩
  · exact he.read_other ha
  · rfl
  · rfl

/-- mem_len, the parameters and the closed flag. -/
theorem exec_memLen_cfg_inClosed {i : Instr} {s t : State} (h : exec i s = .next t) :
    t.memLen = s.memLen ∧ t.cfg = s.cfg ∧ t.inClosed = s.inClosed := by
  rcases exec_next h with ⟨e, _, rfl⟩ | ⟨f, _, rfl⟩ | ⟨_, _, _, _, rfl⟩
  · exact ⟨retire_memLen e s, retire_cfg e s, retire_inClosed e s⟩
  · exact ⟨rfl, rfl, rfl⟩
  · exact ⟨rfl, rfl, rfl⟩

/-- The input queue, or all of it but its head for READ. -/
theorem exec_inQueue {i : Instr} {s t : State} (h : exec i s = .next t) :
    t.inQueue = s.inQueue ∨ opcodeOf i = .read ∧ ∃ x, s.inQueue = x :: t.inQueue := by
  rcases exec_next h with ⟨e, he, rfl⟩ | ⟨f, _, rfl⟩ | ⟨_, _, _, _, rfl⟩
  · cases hc : e.consume with
    | false => exact Or.inl (by simp only [retire_inQueue, hc, Bool.false_eq_true, if_false])
    | true =>
      obtain ⟨d, u, x, rest, rfl, _, hq⟩ := he.of_consume hc
      exact Or.inr ⟨rfl, x, by simp only [retire_inQueue, hc, if_true, hq, List.tail_cons]⟩
  · exact Or.inl rfl
  · exact Or.inl rfl

/-- The output, but for WRITE, which appends its operand. -/
theorem exec_outSeq {i : Instr} {s t : State} (h : exec i s = .next t) :
    t.outSeq = s.outSeq ∨ ∃ a p v, i = .write a ∧ ReadsAs s 1 a p v ∧ t.outSeq = s.outSeq ++ [v] := by
  rcases exec_next h with ⟨e, he, rfl⟩ | ⟨f, _, rfl⟩ | ⟨_, _, _, _, rfl⟩
  · rw [retire_outSeq]
    cases ho : e.out with
    | none => exact Or.inl (List.append_nil _)
    | some v =>
      obtain ⟨a, p, hi, h1⟩ := he.of_out ho
      exact Or.inr ⟨a, p, v, hi, h1, rfl⟩
  · exact Or.inl rfl
  · exact Or.inl rfl

/-- The fault registers, and run_state but for HALT; or it took a fault, and all but these. -/
theorem exec_faultRegisters {i : Instr} {s t : State} (h : exec i s = .next t) :
    (t.runState = s.runState ∨ opcodeOf i = .halt) ∧ FaultRegistersKept s t ∨
      t = faultedWith s t.faultCause t.faultValue t.faultDetail := by
  rcases exec_next h with ⟨e, he, rfl⟩ | ⟨f, _, rfl⟩ | ⟨_, _, _, _, rfl⟩
  · refine Or.inl ⟨?_, retire_faultRegistersKept e s⟩
    by_cases hop : e.op = .halt
    · exact Or.inr (he.of_op_halt hop ▸ rfl)
    · exact Or.inl (by rw [retire_eq]; exact runStateAfter_of_ne hop s.runState)
  · exact Or.inr (takeFault_eq f s)
  · exact Or.inl ⟨Or.inl rfl, rfl, rfl, rfl, rfl⟩

/-- The same for an instruction other than HALT. -/
theorem exec_faultRegisters_of_ne_halt {i : Instr} {s t : State} (h : exec i s = .next t) (hi : opcodeOf i ≠ .halt) :
    t.runState = s.runState ∧ FaultRegistersKept s t ∨ t = faultedWith s t.faultCause t.faultValue t.faultDetail :=
  (exec_faultRegisters h).imp_left (And.imp_left (Or.resolve_right · hi))

/-! The frames of the instructions -/

/-- Settles O26: the one write slot of these is slot 3. -/
theorem frameOfStoringArithmetic : Obligations.FrameOfStoringArithmetic := by
  intro i s t hop h
  obtain ⟨hlen, hcfg, hclosed⟩ := exec_memLen_cfg_inClosed h
  obtain ⟨hread, hwrite, hhalt⟩ : opcodeOf i ≠ .read ∧ opcodeOf i ≠ .write ∧ opcodeOf i ≠ .halt := by
    rcases hop with hop | hop | hop | hop <;> simp [hop]
  refine ⟨fun a ha => exec_read_other h fun k hk => ?_, hlen, hcfg, ?_, hclosed, ?_,
    exec_faultRegisters_of_ne_halt h hhalt⟩
  · obtain ⟨_, rfl⟩ | ⟨hno, _⟩ := slotKind_eq_write.mp hk
    · exact ha
    · exact absurd hno hread
  · exact (exec_inQueue h).resolve_right fun ⟨hno, _⟩ => hread hno
  · exact (exec_outSeq h).resolve_right fun ⟨_, _, _, hno, _⟩ => hwrite (hno ▸ rfl)

/-- Settles O27: the one write slot of READ is slot 1. -/
theorem frameOfRead : Obligations.FrameOfRead := by
  intro d s t h
  obtain ⟨hlen, hcfg, hclosed⟩ := exec_memLen_cfg_inClosed h
  refine ⟨fun a ha => exec_read_other h fun k hk => ?_, hlen, hcfg, hclosed, ?_,
    (exec_inQueue h).imp_right And.right, exec_faultRegisters_of_ne_halt h (by simp [opcodeOf])⟩
  · obtain ⟨hno, _⟩ | ⟨_, rfl⟩ := slotKind_eq_write.mp hk
    · exact absurd hno (by simp [opcodeOf])
    · exact ha
  · exact (exec_outSeq h).resolve_right fun ⟨_, _, _, hno, _⟩ => Instr.noConfusion hno

/-- Settles O28: these have no write slot. -/
theorem frameOfNonStoringInstructions : Obligations.FrameOfNonStoringInstructions := by
  intro i s t hop h
  obtain ⟨hlen, hcfg, hclosed⟩ := exec_memLen_cfg_inClosed h
  have hnone : ∀ k, slotKind (opcodeOf i) k ≠ .write := fun k => by
    rcases hop with hop | hop | hop | hop <;> simp [hop, slotKind_eq_write]
  have hread : opcodeOf i ≠ .read := by rcases hop with hop | hop | hop | hop <;> simp [hop]
  refine ⟨fun a => exec_read_other h fun k hk => absurd hk (hnone k), hlen, hcfg, ?_, hclosed, ?_,
    exec_faultRegisters h⟩
  · exact (exec_inQueue h).resolve_right fun ⟨hno, _⟩ => hread hno
  · rcases exec_outSeq h with hsame | ⟨a, p, v, rfl, _, hout⟩
    · exact Or.inl hsame
    · exact Or.inr ⟨rfl, v, hout⟩

/-! Who writes the fault registers (rule R32) -/

/-- A step leaves the fault registers or takes a fault. -/
theorem step_faultRegisters {s t : State} (h : step s = .next t) : FaultRegistersKept s t ∨ ∃ f, t = takeFault f s := by
  rcases step_cases h with ⟨_, e, _, _, rfl⟩ | ⟨f, rfl, _⟩ | ⟨_, _, _, _, _, _, rfl⟩
  · exact Or.inl (retire_faultRegistersKept e s)
  · exact Or.inr ⟨f, rfl⟩
  · exact Or.inl ⟨rfl, rfl, rfl, rfl⟩

/-- Of the events, start and reset alone write the fault registers. -/
theorem hostMove_faultRegistersKept {e : HostEvent} (s : State) (hstart : e ≠ .start) (hreset : e ≠ .reset) :
    FaultRegistersKept s (hostMove e s).2 := by
  cases e with
  | load seq =>
    rcases hostMove_load_cases seq s with ⟨_, _, _, heq⟩ | ⟨_, heq⟩ | ⟨_, heq⟩ <;> rw [heq] <;>
      exact ⟨rfl, rfl, rfl, rfl⟩
  | patch a v =>
    rcases hostMove_patch_cases a v s with ⟨_, _, _, heq⟩ | heq <;> rw [heq] <;> exact ⟨rfl, rfl, rfl, rfl⟩
  | peek a => rw [hostMove_peek_state]; exact ⟨rfl, rfl, rfl, rfl⟩
  | start => exact absurd rfl hstart
  | reset => exact absurd rfl hreset
  | status | close => exact ⟨rfl, rfl, rfl, rfl⟩
  | supply v =>
    rcases hostMove_supply_cases v s with ⟨_, _, heq⟩ | heq <;> rw [heq] <;> exact ⟨rfl, rfl, rfl, rfl⟩

/-- Attaching writes no fault register. -/
theorem attach_faultRegistersKept (c : Collaborator) (s : State) : FaultRegistersKept s (Machine.attach c s) := by
  rcases attach_cases c s with h | ⟨_, ⟨_, _, _, _, h⟩ | ⟨_, h⟩ | ⟨_, h⟩⟩ <;> rw [h] <;> exact ⟨rfl, rfl, rfl, rfl⟩

/-- Settles O36, move by move. -/
theorem faultRegistersHaveNoOtherWriter : Obligations.FaultRegistersHaveNoOtherWriter := by
  intro m s hstart hreset
  cases m with
  | host e => exact Or.inl (hostMove_faultRegistersKept s (fun h => hstart (h ▸ rfl)) fun h => hreset (h ▸ rfl))
  | attach c => exact Or.inl (attach_faultRegistersKept c s)
  | core =>
    rcases applyMove_core s with ⟨t, hstep, hmove⟩ | ⟨_, hmove⟩ <;> rw [hmove]
    · refine (step_faultRegisters hstep).imp_right fun ⟨f, hf⟩ => ?_
      exact ⟨rfl, running_of_step hstep, _, _, _, causeCode_ne_zero f, hf.trans (takeFault_eq f s)⟩
    · exact Or.inl ⟨rfl, rfl, rfl, rfl⟩

/-! Who writes the output (rule R145) -/

/-- A step leaves the output, or is that of a WRITE and appends its operand. -/
theorem step_outSeq {s t : State} (h : step s = .next t) :
    t.outSeq = s.outSeq ∨
      ∃ a p v, RunsNext s (.write a) ∧ ReadsAs s 1 a p v ∧ t.outSeq = s.outSeq ++ [v] := by
  rcases step_running_cases (running_of_step h) with ⟨i, hrun, hstep⟩ | ⟨f, _, hstep⟩
  · refine (exec_outSeq (hstep.symm.trans h)).imp_right ?_
    rintro ⟨a, p, v, rfl, h1, hout⟩
    exact ⟨a, p, v, hrun, h1, hout⟩
  · cases hstep.symm.trans h
    exact Or.inl rfl

/-- Settles O39, move by move. -/
theorem outputIsAppendedByWriteAlone : Obligations.OutputIsAppendedByWriteAlone := by
  intro m s hattach
  cases m with
  | attach c => exact absurd rfl (hattach c)
  | host e => exact Or.inl (hostMove_channels e s).1
  | core =>
    rcases applyMove_core s with ⟨t, hstep, hmove⟩ | ⟨_, hmove⟩ <;> rw [hmove]
    · exact (step_outSeq hstep).imp_right fun hwrite => ⟨rfl, hwrite⟩
    · exact Or.inl rfl

end Sys2Proof.Machine

/-! The host's side: start, input, replies, and booting an image (10_state.md part 7, 20_memory.md rule R66,
70_reset_and_hazards.md part 2). -/

namespace Sys2Proof.Machine

/-! Start and the input channel -/

/-- Settles O43, from the two answers of a start. -/
theorem startEntersAtIndexZero : Obligations.StartEntersAtIndexZero := fun _ =>
  ⟨hostMove_start_idle, hostMove_start_refused⟩

/-- Settles O47, from the answers of a supply; close has one. -/
theorem supplyAndCloseActOnTheInputAlone : Obligations.SupplyAndCloseActOnTheInputAlone := fun _ _ =>
  ⟨hostMove_supply_open, hostMove_supply_refused, rfl⟩

/-- Settles O46: `inputWait` is the conjunction of these conditions, the fetch and the target resolved by their laws. -/
theorem inputWaitShowsAHeldRead : Obligations.InputWaitShowsAHeldRead := fun _ => inputWait_iff

/-! Refusals and host-side errors (rules R49, R210) -/

/-- The replies that report that nothing was done. -/
def Rejects (r : HostReply) : Prop := r = .refused ∨ ∃ a, r = .addressingFault a

/-- An event so answered leaves the state: each event changes it only with a reply of another kind. -/
theorem hostMove_of_rejects {e : HostEvent} {s : State} (h : Rejects (hostMove e s).1) : (hostMove e s).2 = s := by
  cases e with
  | load seq =>
    rcases hostMove_load_cases seq s with ⟨_, _, _, heq⟩ | ⟨_, heq⟩ | ⟨_, heq⟩ <;> rw [heq] at h ⊢ <;>
      simp [Rejects] at h
  | patch a v =>
    rcases hostMove_patch_cases a v s with ⟨_, _, _, heq⟩ | heq
    · simp [Rejects, heq] at h
    · exact heq
  | peek a => exact hostMove_peek_state a s
  | start =>
    by_cases hi : s.runState = .idle
    · simp [Rejects, hostMove_start_idle hi] at h
    · rw [hostMove_start_refused hi]
  | reset => simp [Rejects, hostMove_reset] at h
  | status => rfl
  | supply v =>
    rcases hostMove_supply_cases v s with ⟨_, _, heq⟩ | heq <;> rw [heq] at h ⊢
    simp [Rejects] at h
  | close => simp [Rejects, hostMove, hostClose] at h

/-- Settles O48, from the frames of the events. -/
theorem refusedEventsChangeNothing : Obligations.RefusedEventsChangeNothing := fun _ s =>
  ⟨fun h => hostMove_of_rejects (Or.inl h), fun a h => hostMove_of_rejects (Or.inr ⟨a, h⟩),
    fun hstart hreset => ⟨hostMove_runState s hstart hreset, hostMove_faultRegistersKept s hstart hreset⟩⟩

/-! An empty memory (rule R234) -/

/-- A machine started with mem_len 0 faults on the fetch at index 0, where no index is valid. -/
theorem step_start_of_empty {s : State} (hi : s.runState = .idle) (hlen : s.memLen = 0) :
    step (applyMove (.host .start) s) = .next (faultedWith (applyMove (.host .start) s) 1 0 1) := by
  simp only [applyMove, hostMove_start_idle hi]
  refine step_of_invalid_pc rfl fun hvalid => ?_
  have hpos : (0 : Int) < s.memLen := hvalid.2
  omega

/-- A load of the empty sequence, and one that fails, leave mem_len 0 in IDLE. -/
theorem step_start_of_empty_load {seq : List Int} {s : State} (hi : s.runState = .idle)
    (h : seq = [] ∨ s.cfg.memCapacity < seq.length ∨ ∃ v ∈ seq, inWord s.cfg v = false) :
    step (runMoves [.host (.load seq), .host .start] s) =
      .next (faultedWith (runMoves [.host (.load seq), .host .start] s) 1 0 1) := by
  have hidle : (hostMove (.load seq) s).2.runState = .idle :=
    (hostMove_runState (e := .load seq) s nofun nofun).trans hi
  refine step_start_of_empty hidle ?_
  show (hostMove (.load seq) s).2.memLen = 0
  rcases h with rfl | hbad
  · rw [hostMove_load_words (seq := []) hi (Nat.zero_le _) nofun]
    rfl
  · rw [hostMove_load_error hi hbad]

/-- Settles O45: each of the three ways leaves mem_len 0 before the start. -/
theorem emptyMachineFaultsAtItsFirstFetch : Obligations.EmptyMachineFaultsAtItsFirstFetch := by
  refine fun s seq => ⟨step_start_of_empty, fun ms hms => ?_⟩
  have hidle : (applyMove (.host .reset) s).runState = .idle := rfl
  rcases hms with rfl | rfl | ⟨rfl, hbad⟩
  · exact step_start_of_empty hidle rfl
  · exact step_start_of_empty_load hidle (Or.inl rfl)
  · exact step_start_of_empty_load hidle (Or.inr hbad)

/-! Memory that holds an image -/

/-- The memory is canonical and holds each element of the image at its index. -/
def HoldsImage (m : Memory) (image : List Int) : Prop :=
  m.wf = true ∧ ∀ (i : Nat) (v : Int), image[i]? = some v → m.read i = v

/-- The memory of a sequence holds it. -/
theorem holdsImage_ofListFrom (image : List Int) : HoldsImage (Memory.ofListFrom 0 image) image :=
  ⟨Memory.wf_ofListFrom 0 image, fun _ _ => Memory.read_ofListFrom_zero⟩

/-- Writing an index of the image sets its element there. -/
theorem HoldsImage.write {m : Memory} {image : List Int} (h : HoldsImage m image) (a : Nat) (v : Int) :
    HoldsImage (m.write a v) (image.set a v) := by
  obtain ⟨hwf, hread⟩ := h
  refine ⟨Memory.wf_write a v hwf, fun i u hu => ?_⟩
  rw [Memory.read_write _ _ _ hwf]
  by_cases hia : i = a
  · subst hia
    rw [List.getElem?_set_self'] at hu
    obtain ⟨_, _, rfl⟩ := Option.map_eq_some_iff.mp hu
    exact if_pos rfl
  · rw [List.getElem?_set_ne (Ne.symm hia)] at hu
    rw [if_neg hia, hread i u hu]

/-- Settles O49: after a load that succeeds the index of an element is valid, and memory holds the element there. -/
theorem peekReturnsTheLoadedSequence : Obligations.PeekReturnsTheLoadedSequence := by
  intro s seq i v hok hv
  rcases hostMove_load_cases seq s with ⟨hi, _, _, heq⟩ | ⟨_, heq⟩ | ⟨_, heq⟩
  · have hi' : i < seq.length := (List.getElem?_eq_some_iff.mp hv).1
    have hidle : (hostMove (.load seq) s).2.runState ≠ .running := by rw [heq, hi]; decide
    have hvalid : Valid (hostMove (.load seq) s).2 i := by
      rw [heq]
      exact ⟨Int.natCast_nonneg i, Int.ofNat_lt.mpr hi'⟩
    rw [hostMove_peek _ hidle, if_pos hvalid, heq]
    exact congrArg HostReply.word (Memory.read_ofListFrom_zero hv)
  · rw [heq] at hok; cases hok
  · rw [heq] at hok; cases hok

/-! Booting (rule R232) -/

/-- Patches of Words at indices of the image leave memory with the patched image, and all else as it was. -/
theorem runMoves_patches {image : List Int} {patches : List (Int × Int)} {s : State} (hi : s.runState = .idle)
    (hlen : s.memLen = image.length) (hm : HoldsImage s.mem image)
    (hp : ∀ p ∈ patches, 0 ≤ p.1 ∧ p.1 < image.length ∧ inWord s.cfg p.2 = true) :
    ∃ m, HoldsImage m (patches.foldl (fun im p => im.set p.1.toNat p.2) image) ∧
      runMoves (patches.map fun p => .host (.patch p.1 p.2)) s = { s with mem := m } := by
  induction patches generalizing s image with
  | nil => exact ⟨s.mem, hm, rfl⟩
  | cons p ps ih =>
    obtain ⟨hlow, hhigh, hw⟩ := hp p (by simp)
    have hmove : applyMove (.host (.patch p.1 p.2)) s = memWrite p.1 p.2 s := by
      simp only [applyMove, hostMove_patch_idle p.1 hi hw, if_pos (show Valid s p.1 from ⟨hlow, hlen ▸ hhigh⟩)]
    rw [List.map_cons, runMoves_cons, hmove]
    exact ih (s := memWrite p.1 p.2 s) hi (by rw [List.length_set]; exact hlen) (hm.write p.1.toNat p.2)
      fun q hq => by rw [List.length_set]; exact hp q (by simp [hq])

/-- A reset and a load of Words that fit leave the image in IDLE, with every register 0. -/
theorem runMoves_reset_load {image : List Int} {s : State} (hlen : image.length ≤ s.cfg.memCapacity)
    (himage : ∀ v ∈ image, inWord s.cfg v = true) :
    runMoves [.host .reset, .host (.load image)] s = { s with
      mem := Memory.ofListFrom 0 image, memLen := image.length, pc := 0, runState := .idle
      faultCause := 0, faultPc := 0, faultValue := 0, faultDetail := 0 } := by
  have hload := hostMove_load_words (s := (hostMove .reset s).2) rfl hlen himage
  show (hostMove (.load image) (hostMove .reset s).2).2 = _
  rw [hload, hostMove_reset]

/-- In IDLE a source of Words and a sink are attached, and the machine starts. -/
theorem runMoves_attach_start {input : List Int} {s : State} (closed : Bool) (hi : s.runState = .idle)
    (hinput : ∀ v ∈ input, inWord s.cfg v = true) :
    runMoves [.attach (.source input closed), .attach .sink, .host .start] s = { s with
      pc := 0, runState := .running, faultCause := 0, faultPc := 0, faultValue := 0, faultDetail := 0
      inQueue := input, inClosed := closed, outSeq := [] } := by
  show (hostMove .start (Machine.attach .sink (Machine.attach (.source input closed) s))).2 = _
  simp only [attach_source closed hi hinput, attach_sink, hostMove_start_idle, hi]

/-- Settles O50: reset leads to IDLE, where load, patch, attach and start are allowed in turn. -/
theorem bootRunsTheImageFromIndexZero : Obligations.BootRunsTheImageFromIndexZero := by
  intro s image input patches closed hlen himage hpatches hinput
  have hloaded := runMoves_reset_load hlen himage
  obtain ⟨m, ⟨hwf, hread⟩, hpatched⟩ := runMoves_patches
    (s := runMoves [.host .reset, .host (.load image)] s) (image := image) (patches := patches)
    (by rw [hloaded]) (by rw [hloaded]) (by rw [hloaded]; exact holdsImage_ofListFrom image)
    (by rw [hloaded]; exact hpatches)
  refine ⟨m, hwf, hread, ?_⟩
  rw [bootMoves, runMoves_append, runMoves_append, hpatched, hloaded]
  exact runMoves_attach_start closed rfl hinput

end Sys2Proof.Machine

/-! Runs: where the core has a step, and that a weakly fair run left alone goes where the core's steps go
(40_step_pipeline.md rule R100, 70_reset_and_hazards.md rule R237). -/

namespace Sys2Proof.Machine

/-- A RUNNING machine has a step. -/
theorem step_next_of_running {s : State} (h : s.runState = .running) : ∃ t, step s = .next t := by
  rcases step_running_cases h with ⟨i, _, hstep⟩ | ⟨f, _, hstep⟩
  · rcases exec_cases i s with ⟨e, _, hexec⟩ | ⟨f, _, hexec⟩ | ⟨_, _, _, _, hexec⟩ <;>
      exact ⟨_, hstep.trans hexec⟩
  · exact ⟨_, hstep⟩

/-- Settles O6: a step is taken RUNNING, and a RUNNING machine has one. -/
theorem stepHasANextStateOnlyWhenRunning : Obligations.StepHasANextStateOnlyWhenRunning := by
  intro s
  exact ⟨⟨fun ⟨_, h⟩ => running_of_step h, step_next_of_running⟩, fun h => by simp only [step, h],
    fun h => by simp only [step, h]⟩

/-! Fair runs -/

/-- A core that is not ready has no step that changes the state: it is not RUNNING, or a READ holds. -/
theorem applyMove_core_of_not_ready {s : State} (h : ready s = false) : applyMove .core s = s := by
  by_cases hr : s.runState = .running
  · have hwait : inputWait s = true := by simpa [ready, hr] using h
    simp only [applyMove, step_of_inputWait hwait]
  · exact applyMove_core_of_ne_running hr

/-- A move that leaves a RUNNING machine alone changes nothing, unless it is the core's. -/
theorem applyMove_of_leavesRunAlone {m : Move} {s : State} (hr : s.runState = .running)
    (hm : leavesRunAlone m = true) (hcore : m ≠ .core) : applyMove m s = s := by
  cases m with
  | core => exact absurd rfl hcore
  | attach c => exact attach_of_ne_idle c (by rw [hr]; decide)
  | host e =>
    refine hostMove_of_running hr ?_ ?_ ?_
    · rintro v rfl; cases hm
    · rintro rfl; cases hm
    · rintro rfl; cases hm

/-- While the core is ready, a fair run that leaves it alone waits, and then takes its step. -/
theorem runUpTo_takes_step {moves : Nat → Move} {s u : State} {n : Nat} (hfair : WeaklyFair moves s)
    (halone : ∀ n, leavesRunAlone (moves n) = true) (hn : runUpTo moves n s = u) (hready : ready u = true) :
    ∃ m, runUpTo moves m s = applyMove .core u := by
  have hr : u.runState = .running := by
    simp only [ready, Bool.and_eq_true, decide_eq_true_eq] at hready
    exact hready.1
  have hwaits : ∀ d, (∀ m, n ≤ m → m < n + d → moves m ≠ .core) → runUpTo moves (n + d) s = u := fun d hd =>
    runUpTo_stays hn d fun m h1 h2 => applyMove_of_leavesRunAlone hr (halone m) (hd m h1 h2)
  have hcore : ∃ d, moves (n + d) = .core := by
    by_contra hnone
    have hnever : ∀ m, n ≤ m → moves m ≠ .core := fun m hm hmove =>
      hnone ⟨m - n, by rwa [Nat.add_sub_cancel' hm]⟩
    obtain ⟨m, hm, hmove⟩ := hfair n fun m hm => by
      rw [← Nat.add_sub_cancel' hm, hwaits _ fun m' hm' _ => hnever m' hm']
      exact hready
    exact hnever m hm hmove
  have hfirst : ∀ m, n ≤ m → m < n + Nat.find hcore → moves m ≠ .core := fun m h1 h2 hmove =>
    Nat.find_min hcore (m := m - n) (by omega) (by rwa [Nat.add_sub_cancel' h1])
  exact ⟨n + Nat.find hcore + 1, by rw [runUpTo_succ, hwaits _ hfirst, Nat.find_spec hcore]⟩

/-- A fair run that leaves the core alone passes through every state that the core's steps reach. -/
theorem runUpTo_reaches_coreSteps {moves : Nat → Move} {s : State} (hfair : WeaklyFair moves s)
    (halone : ∀ n, leavesRunAlone (moves n) = true) (k n : Nat) :
    ∃ m, runUpTo moves m s = coreSteps k (runUpTo moves n s) := by
  induction k generalizing n with
  | zero => exact ⟨n, rfl⟩
  | succ k ih =>
    rw [coreSteps_succ]
    cases hready : ready (runUpTo moves n s) with
    | false =>
      rw [applyMove_core_of_not_ready hready]
      exact ih n
    | true =>
      obtain ⟨m, hm⟩ := runUpTo_takes_step hfair halone rfl hready
      rw [← hm]
      exact ih m

/-- Moves that each change nothing change nothing together. -/
theorem runUpTo_of_fixed {moves : Nat → Move} {s : State} (h : ∀ n, applyMove (moves n) s = s) (n : Nat) :
    runUpTo moves n s = s := by
  simpa only [Nat.zero_add] using runUpTo_stays (n := 0) (u := s) rfl n fun m _ _ => h m

/-- Settles O54; the run that goes nowhere is one of status reads. -/
theorem fairRunsReachTheEnd : Obligations.FairRunsReachTheEnd :=
  ⟨fun _ _ k hfair halone _ => runUpTo_reaches_coreSteps hfair halone k 0,
    fun _ => ⟨fun _ => .host .status, fun _ => rfl, runUpTo_of_fixed fun _ => rfl⟩⟩

end Sys2Proof.Machine
